-- ==== Sys2Proof/Word.lean ====
section
/-! DEFINITION. Words and bytes of the machine, and the wrapping of an integer into a word (00_scope.md R9). -/

namespace Sys2Proof

/-- `Bits32` of 00_scope.md R9: every register, address, PC and ALU value.
The unsigned reading `u(v)` is `v.toNat`, the signed reading `s(v)` is `v.toInt`. -/
abbrev Word := BitVec 32

/-- One byte of memory or of the output. -/
abbrev Byte := BitVec 8

/-- `wrap32(n) = n mod 2^32` for any integer `n` (00_scope.md R9). -/
def wrap32 (n : Int) : Word := BitVec.ofInt 32 n

end Sys2Proof
end

