-- ==== Sys2Proof/Syntax.lean ====
section
/-! DEFINITION. The instruction record, the Program, the instruction type with one constructor per row of the opcode
table, and the results of decoding and of loading (30_encoding.md sections 1 to 4). -/

namespace Sys2Proof

/-- Source text, as a list of characters. -/
abbrev Text := List Char

/-- One mnemonic or operand token of an instruction record (00_scope.md R15, 30_encoding.md R71). -/
abbrev Token := List Char

/-- A register index, 0 to 31 (10_state.md R21). -/
abbrev Reg := Fin 32

/-- The label table `L : name -> Bits32` (30_encoding.md R70). -/
abbrev Labels := List (Token × Word)

/-- The instructions: one constructor per row of spec/opcode_table.json, with its operands RESOLVED as the decoder
interface of 10_state.md R40 gives them: a register token is an index, a value token (label or literal) is its 32-bit
value, a memory token is its offset and its base register. The operands stand in token order. -/
inductive Instr
  /-- `add rd, rs, rt` (R122) -/
  | add (rd rs rt : Reg)
  /-- `addu rd, rs, rt` (R123) -/
  | addu (rd rs rt : Reg)
  /-- `sub rd, rs, rt` (R124) -/
  | sub (rd rs rt : Reg)
  /-- `subu rd, rs, rt` (R125) -/
  | subu (rd rs rt : Reg)
  /-- `addi rd, rs, imm` (R126) -/
  | addi (rd rs : Reg) (imm : Word)
  /-- `addiu rd, rs, imm` (R127) -/
  | addiu (rd rs : Reg) (imm : Word)
  /-- `mul rd, rs, rt` (R128) -/
  | mul (rd rs rt : Reg)
  /-- `and rd, rs, rt` (R129) -/
  | and (rd rs rt : Reg)
  /-- `or rd, rs, rt` (R130) -/
  | or (rd rs rt : Reg)
  /-- `xor rd, rs, rt` (R131) -/
  | xor (rd rs rt : Reg)
  /-- `sll rd, rs, shamt` (R132) -/
  | sll (rd rs : Reg) (shamt : Word)
  /-- `srl rd, rs, shamt` (R133) -/
  | srl (rd rs : Reg) (shamt : Word)
  /-- `slt rd, rs, rt` (R134) -/
  | slt (rd rs rt : Reg)
  /-- `slti rd, rs, imm` (R135) -/
  | slti (rd rs : Reg) (imm : Word)
  /-- `lui rd, imm` (R136) -/
  | lui (rd : Reg) (imm : Word)
  /-- `li rd, imm` (R150) -/
  | li (rd : Reg) (imm : Word)
  /-- `la rd, target` (R151) -/
  | la (rd : Reg) (target : Word)
  /-- `move rd, rs` (R152) -/
  | move (rd rs : Reg)
  /-- `lw rt, off(base)` (R161) -/
  | lw (rt : Reg) (off : Word) (base : Reg)
  /-- `sw rt, off(base)` (R162) -/
  | sw (rt : Reg) (off : Word) (base : Reg)
  /-- `lb rt, off(base)` (R163) -/
  | lb (rt : Reg) (off : Word) (base : Reg)
  /-- `sb rt, off(base)` (R164) -/
  | sb (rt : Reg) (off : Word) (base : Reg)
  /-- `beq rs, rt, target` (R171) -/
  | beq (rs rt : Reg) (target : Word)
  /-- `bne rs, rt, target` (R172) -/
  | bne (rs rt : Reg) (target : Word)
  /-- `j target` (R173) -/
  | j (target : Word)
  /-- `jal target` (R174) -/
  | jal (target : Word)
  /-- `jr rs` (R175) -/
  | jr (rs : Reg)
  /-- `syscall` (R180) -/
  | syscall
  /-- `(other)`: any mnemonic outside the table, with its operand tokens, never examined (R190) -/
  | other (mnemonic : Token) (operands : List Token)
  deriving DecidableEq, Repr

/-- The instruction record (30_encoding.md R71). `sourceLine` is metadata for the host display. -/
structure Record where
  address    : Word
  mnemonic   : Token
  operands   : List Token
  sourceLine : Nat
  deriving DecidableEq, Repr

/-- The Program the block executes (30_encoding.md R70): instruction list, label table and data image. The map from
instruction address to source line is the view `Program.sourceLineAt` of the records (it is stored once, there). The
data image lists the bytes the directives wrote, in the order they were written (assumption 15). -/
structure Program where
  instrs : List Record
  labels : Labels
  data   : List (Word × Byte)
  deriving DecidableEq, Repr

/-- The Program before any successful assemble (70_reset_and_hazards.md R233). -/
def Program.empty : Program := ⟨[], [], []⟩

/-- The kinds of runtime fault (60_exceptions.md R202). A runtime fault is a behaviour of the hardware: the machine
goes on to the status Faulted. -/
inductive FaultKind
  /-- the number of operand tokens differs from the form's count (R89) -/
  | operandCount
  /-- a register-position token is not one of the 32 register names (R85) -/
  | badRegister
  /-- a value-position token is neither a label nor an in-range decimal literal (R86) -/
  | badValue
  /-- a memory-position token is not `<lit>(<reg>)` (R88) -/
  | badMemOperand
  deriving DecidableEq, Repr

/-- What the spec's decoder refuses (30_encoding.md R91; 93_implementation_defined.md U5). -/
inductive DecodeRefusal
  /-- the mnemonic equals a table mnemonic only after ASCII case folding -/
  | caseVariantMnemonic
  deriving DecidableEq, Repr

/-- The decoder's answer (10_state.md R40): an operation, a runtime fault, or a refusal. The interface's `Nop` is the
operation `Instr.other`. -/
inductive Decoded
  | op (i : Instr)
  | fault (k : FaultKind)
  | refused (r : DecodeRefusal)
  deriving DecidableEq, Repr

/-- The two sections of a source text (30_encoding.md R75). -/
inductive Sect
  | text
  | data
  deriving DecidableEq, Repr

/-- What the spec's loader refuses (30_encoding.md R74 to R80; 93_implementation_defined.md U8, U11 to U14). Each is
raised by the loader only, and is safe: the model claims nothing there. -/
inductive LoaderRefusal
  /-- a line holds `\#`, or a `#` between double quotes (R74, D23) -/
  | escapedHash
  /-- a `.data` or `.text` line with further text (R75) -/
  | sectionArgument
  /-- an empty or whitespace-containing label name, or a first `:` between double quotes (R76) -/
  | badLabel
  /-- a label name bound twice (R76, D26) -/
  | duplicateLabel
  /-- a `.text` line whose first token begins with `.` (R79) -/
  | textDirective
  /-- a `.text` line of commas only: it has no first token (assumption 8) -/
  | emptyInstruction
  /-- any other line in `.data` (R80) -/
  | dataLine
  /-- a backslash sequence other than `\n` and `\t` (R77) -/
  | stringEscape
  /-- text before the opening or after the closing quote of a string (R77; assumption 8) -/
  | textAroundString
  /-- a `.word` line without exactly one value (R78; assumption 8) -/
  | wordList
  /-- a `.word` literal outside the range or the spelling of R87 (R78, U8; assumption 8) -/
  | wordLiteral
  deriving DecidableEq, Repr

/-- The source's own assembler errors (30_encoding.md R77, R78, R82). -/
inductive AssemblerErrorKind
  /-- "malformed quoted string": a missing quote (R77) -/
  | malformedString
  /-- a non-numeric `.word` operand (R78) -/
  | nonNumericWord
  deriving DecidableEq, Repr

/-- `AssemblerError{line, message}` with a 1-based line (30_encoding.md R82). -/
structure AssemblerError where
  line    : Nat
  message : Text
  deriving DecidableEq, Repr

/-- Why the loader stops before the end of a source text. -/
inductive LoaderStop
  | error (e : AssemblerError)
  | refused (r : LoaderRefusal)
  deriving DecidableEq, Repr

/-- The loader's state while it scans the lines of a source text (30_encoding.md R75, R76). -/
structure LoaderState where
  sect    : Sect
  textPtr : Word
  dataPtr : Word
  instrs  : List Record
  labels  : Labels
  data    : List (Word × Byte)
  deriving DecidableEq, Repr

/-- The scan of the characters after an opening double quote (30_encoding.md R77). -/
inductive StringScan
  /-- the closing quote was met: the bytes of the string and the text after the quote -/
  | closed (bytes : List Byte) (after : Text)
  | unterminated
  | badEscape
  deriving DecidableEq, Repr

end Sys2Proof
end

