-- ==== Sys2Proof/Config.lean ====
section
/-! DEFINITION. What an implementation fixes (00_scope.md R8) and the free values. -/

namespace Sys2Proof.Config

/-- `TEXT_BASE`, a named configuration field with this default (R8, U2; assumption 11). -/
def textBase : Word := 0x00400000

/-- `DATA_BASE`, a named configuration field with this default (R8, U2; assumption 11). -/
def dataBase : Word := 0x10010000

/-- `PRINT_STRING_CAP`, in bytes (R8, R182; assumption 11). -/
def printStringCap : Nat := 1000

/-- `INSTR_SIZE`: bytes of address per instruction (R8). -/
def instrSize : Word := 4

/-- `ENTRY_PC = TEXT_BASE` (R8, D12). -/
def entryPc : Word := textBase

/-- `STACK_BASE`: the spec's OPEN parameter, with no default (R8, D13; assumption 3). Nothing about its value can be
proved, so a claim holds for every value of it. -/
opaque stackBase : Word

/-- FREE VALUE: the text of a runtime-fault message (R201, U3; assumption 4). The first argument is the draw counter
of State. -/
opaque faultMessage : Nat → FaultKind → Record → Text

/-- FREE VALUE: the text of an assembler error's message (R82; assumption 9), from the kind, the line number and the
line. -/
opaque assemblerMessage : AssemblerErrorKind → Nat → Text → Text

/-- `V0_INDEX` (R8, D2; assumption 5). -/
def v0 : Reg := 2

/-- `A0_INDEX` (R8, D2; assumption 5). -/
def a0 : Reg := 4

/-- `SP_INDEX` (R8, D2; assumption 5). -/
def sp : Reg := 29

/-- `RA_INDEX` (R8, D2; assumption 5). -/
def ra : Reg := 31

end Sys2Proof.Config
end

