-- ==== Sys2Proof/Decode.lean ====
section
/-! DEFINITION. The decoder (30_encoding.md sections 3 and 4): operand resolution, dispatch by mnemonic, the split of a
source line into tokens, and the reading of a text carried in bits; AFTER it the encoder, from a well-formed instruction
back to its tokens. Nothing here reads a register or memory (10_state.md R40). -/

namespace Sys2Proof

/-! ## Tables -/

/-- The value bound to a token: its first binding. -/
def lookupToken {α : Type} (t : Token) : List (Token × α) → Option α
  | [] => none
  | (k, v) :: rest => if t = k then some v else lookupToken t rest

/-- The 32 register names and their indices (10_state.md R23; assumption 5). -/
def registerTable : List (Token × Reg) :=
  [(['$', 'z', 'e', 'r', 'o'], 0),
   (['$', 'a', 't'], 1),
   (['$', 'v', '0'], 2),
   (['$', 'v', '1'], 3),
   (['$', 'a', '0'], 4),
   (['$', 'a', '1'], 5),
   (['$', 'a', '2'], 6),
   (['$', 'a', '3'], 7)] ++
  [(['$', 't', '0'], 8),
   (['$', 't', '1'], 9),
   (['$', 't', '2'], 10),
   (['$', 't', '3'], 11),
   (['$', 't', '4'], 12),
   (['$', 't', '5'], 13),
   (['$', 't', '6'], 14),
   (['$', 't', '7'], 15)] ++
  [(['$', 's', '0'], 16),
   (['$', 's', '1'], 17),
   (['$', 's', '2'], 18),
   (['$', 's', '3'], 19),
   (['$', 's', '4'], 20),
   (['$', 's', '5'], 21),
   (['$', 's', '6'], 22),
   (['$', 's', '7'], 23)] ++
  [(['$', 't', '8'], 24),
   (['$', 't', '9'], 25),
   (['$', 'k', '0'], 26),
   (['$', 'k', '1'], 27),
   (['$', 'g', 'p'], 28),
   (['$', 's', 'p'], 29),
   (['$', 'f', 'p'], 30),
   (['$', 'r', 'a'], 31)]

/-! ## Decimal literals -/

/-- The value of an ASCII decimal digit. -/
def digitValue (c : Char) : Option Nat :=
  if '0'.toNat ≤ c.toNat ∧ c.toNat ≤ '9'.toNat then some (c.toNat - '0'.toNat) else none

/-- Reads digits in base 10 onto the value read so far; `none` at a character that is no digit. -/
def readDigits : Text → Nat → Option Nat
  | [], acc => some acc
  | c :: cs, acc =>
    match digitValue c with
    | some d => readDigits cs (acc * 10 + d)
    | none => none

/-- One or more ASCII digits, base 10, leading zeros allowed (30_encoding.md R87). -/
def readNat (t : Text) : Option Nat := if t = [] then none else readDigits t 0

/-- An optional `-` followed by one or more digits (30_encoding.md R87). -/
def readInt (t : Text) : Option Int :=
  match t with
  | [] => none
  | c :: cs =>
    if c = '-' then
      match readNat cs with
      | some n => some (-Int.ofNat n)
      | none => none
    else
      match readNat (c :: cs) with
      | some n => some (Int.ofNat n)
      | none => none

/-- The range of a decimal literal: `-2^31 <= n <= 2^32 - 1` (30_encoding.md R87). -/
def literalInRange (n : Int) : Bool := decide (-2147483648 ≤ n ∧ n ≤ 4294967295)

/-- A decimal literal's value `wrap32(n)`; `none` where the token is no literal (30_encoding.md R87). -/
def literalValue (t : Token) : Option Word :=
  match readInt t with
  | some n => if literalInRange n then some (wrap32 n) else none
  | none => none

/-! ## Operand resolution -/

/-- `reg(k)`: exactly one of the 32 names, else `BadRegister` (30_encoding.md R85). -/
def resolveReg (t : Token) : Except FaultKind Reg :=
  match lookupToken t registerTable with
  | some r => .ok r
  | none => .error .badRegister

/-- `val(k)`: a label name first, then a decimal literal, else `BadValue` (30_encoding.md R86). -/
def resolveVal (labels : Labels) (t : Token) : Except FaultKind Word :=
  match lookupToken t labels with
  | some w => .ok w
  | none =>
    match literalValue t with
    | some w => .ok w
    | none => .error .badValue

/-- The base-register part of a memory token, after its `(`: a register name and the closing `)`. -/
def readBase (t : Text) : Option Reg :=
  if t.getLast? = some ')' then lookupToken t.dropLast registerTable else none

/-- `mem(k)`: `<lit>(<reg>)`, giving the offset `wrap32(n)` and the base index, else `BadMemOperand`
(30_encoding.md R88). -/
def resolveMem (t : Token) : Except FaultKind (Word × Reg) :=
  match literalValue (t.takeWhile (· ≠ '(')), readBase (t.dropWhile (· ≠ '(')).tail with
  | some off, some base => .ok (off, base)
  | _, _ => .error .badMemOperand

/-! ## The operand forms: the count check first, then the operands left to right (30_encoding.md R83, R89, R90) -/

/-- Goes on with an operand that resolved, or reports its fault. -/
def resolved {α : Type} (x : Except FaultKind α) (k : α → Decoded) : Decoded :=
  match x with
  | .ok a => k a
  | .error f => .fault f

/-- Form `RRR`. -/
def decodeRRR (mk : Reg → Reg → Reg → Instr) (ops : List Token) : Decoded :=
  match ops with
  | [a, b, c] =>
    resolved (resolveReg a) fun x => resolved (resolveReg b) fun y => resolved (resolveReg c) fun z => .op (mk x y z)
  | _ => .fault .operandCount

/-- Forms `RRV`, `RRS` and `RRT`: two registers and a value. -/
def decodeRRV (labels : Labels) (mk : Reg → Reg → Word → Instr) (ops : List Token) : Decoded :=
  match ops with
  | [a, b, c] =>
    resolved (resolveReg a) fun x => resolved (resolveReg b) fun y => resolved (resolveVal labels c) fun v =>
      .op (mk x y v)
  | _ => .fault .operandCount

/-- Form `RV`. -/
def decodeRV (labels : Labels) (mk : Reg → Word → Instr) (ops : List Token) : Decoded :=
  match ops with
  | [a, b] => resolved (resolveReg a) fun x => resolved (resolveVal labels b) fun v => .op (mk x v)
  | _ => .fault .operandCount

/-- Form `RR`. -/
def decodeRR (mk : Reg → Reg → Instr) (ops : List Token) : Decoded :=
  match ops with
  | [a, b] => resolved (resolveReg a) fun x => resolved (resolveReg b) fun y => .op (mk x y)
  | _ => .fault .operandCount

/-- Form `RM`. -/
def decodeRM (mk : Reg → Word → Reg → Instr) (ops : List Token) : Decoded :=
  match ops with
  | [a, b] => resolved (resolveReg a) fun x => resolved (resolveMem b) fun m => .op (mk x m.1 m.2)
  | _ => .fault .operandCount

/-- Form `T`: one value, the target. -/
def decodeV (labels : Labels) (mk : Word → Instr) (ops : List Token) : Decoded :=
  match ops with
  | [a] => resolved (resolveVal labels a) fun v => .op (mk v)
  | _ => .fault .operandCount

/-- Form `R`. -/
def decodeR (mk : Reg → Instr) (ops : List Token) : Decoded :=
  match ops with
  | [a] => resolved (resolveReg a) fun x => .op (mk x)
  | _ => .fault .operandCount

/-- Form `N`: no operands. -/
def decodeN (i : Instr) (ops : List Token) : Decoded :=
  match ops with
  | [] => .op i
  | _ :: _ => .fault .operandCount

/-! ## Dispatch -/

/-- The dispatch table: each of the 28 mnemonics with the decoder of its operand form (00_scope.md R2,
30_encoding.md R83). -/
def opcodeTable (labels : Labels) : List (Token × (List Token → Decoded)) :=
  [(['a', 'd', 'd'], decodeRRR .add),
   (['a', 'd', 'd', 'u'], decodeRRR .addu),
   (['s', 'u', 'b'], decodeRRR .sub),
   (['s', 'u', 'b', 'u'], decodeRRR .subu),
   (['a', 'd', 'd', 'i'], decodeRRV labels .addi),
   (['a', 'd', 'd', 'i', 'u'], decodeRRV labels .addiu),
   (['m', 'u', 'l'], decodeRRR .mul)] ++
  [(['a', 'n', 'd'], decodeRRR .and),
   (['o', 'r'], decodeRRR .or),
   (['x', 'o', 'r'], decodeRRR .xor),
   (['s', 'l', 'l'], decodeRRV labels .sll),
   (['s', 'r', 'l'], decodeRRV labels .srl),
   (['s', 'l', 't'], decodeRRR .slt),
   (['s', 'l', 't', 'i'], decodeRRV labels .slti)] ++
  [(['l', 'u', 'i'], decodeRV labels .lui),
   (['l', 'i'], decodeRV labels .li),
   (['l', 'a'], decodeRV labels .la),
   (['m', 'o', 'v', 'e'], decodeRR .move),
   (['l', 'w'], decodeRM .lw),
   (['s', 'w'], decodeRM .sw),
   (['l', 'b'], decodeRM .lb),
   (['s', 'b'], decodeRM .sb)] ++
  [(['b', 'e', 'q'], decodeRRV labels .beq),
   (['b', 'n', 'e'], decodeRRV labels .bne),
   (['j'], decodeV labels .j),
   (['j', 'a', 'l'], decodeV labels .jal),
   (['j', 'r'], decodeR .jr),
   (['s', 'y', 's', 'c', 'a', 'l', 'l'], decodeN .syscall)]

/-- The 28 table mnemonics (00_scope.md R2). -/
def tableMnemonics : List Token := (opcodeTable []).map Prod.fst

/-- ASCII lower case of one character. -/
def asciiLowerChar (c : Char) : Char :=
  if 'A'.toNat ≤ c.toNat ∧ c.toNat ≤ 'Z'.toNat then Char.ofNat (c.toNat + 32) else c

/-- `asciiLower` of 30_encoding.md R91 (assumption 22). -/
def asciiLower (t : Token) : Token := t.map asciiLowerChar

/-- The decoder (30_encoding.md R91): exact match with a table mnemonic; else refused where it matches after ASCII case
folding; else the no-op. -/
def decodeTokens (labels : Labels) (mnemonic : Token) (operands : List Token) : Decoded :=
  match lookupToken mnemonic (opcodeTable labels) with
  | some form => form operands
  | none =>
    if asciiLower mnemonic ∈ tableMnemonics then .refused .caseVariantMnemonic
    else .op (.other mnemonic operands)

/-- `decode(I, L)` of 10_state.md R40: the address and the source line of the record are not read. -/
def decode (I : Record) (labels : Labels) : Decoded := decodeTokens labels I.mnemonic I.operands

/-! ## Source lines -/

/-- Whitespace: space, tab, line feed, vertical tab, form feed, carriage return (assumption 6). -/
def isSpace (c : Char) : Bool := c.toNat == 32 || (decide (9 ≤ c.toNat) && decide (c.toNat ≤ 13))

/-- What separates tokens: whitespace, and the comma, which R79 replaces by whitespace. -/
def isSeparator (c : Char) : Bool := isSpace c || c == ','

/-- Splits on runs of separators; `cur` is the token being read (30_encoding.md R79, D7). -/
def splitTokens : Text → Token → List Token
  | [], cur => if cur = [] then [] else [cur]
  | c :: cs, cur =>
    if isSeparator c then
      if cur = [] then splitTokens cs [] else cur :: splitTokens cs []
    else splitTokens cs (cur ++ [c])

/-- The tokens of an instruction line: the mnemonic, then the operands (30_encoding.md R79). -/
def tokenise (line : Text) : List Token := splitTokens line []

/-- Decodes an instruction line; `none` where the line holds no token. -/
def decodeLine (labels : Labels) (line : Text) : Option Decoded :=
  match tokenise line with
  | [] => none
  | m :: ops => some (decodeTokens labels m ops)

/-! ## An instruction line carried in bits (assumption 2)

The hardware has no binary encoding (00_scope.md R3). Where the host hands over an instruction as bits, they carry its
SOURCE LINE: one ASCII character a byte, the first character in bits 7..0, the text ending before the first zero byte. -/

/-- The bytes of `w`, the least significant first, `n` of them. -/
def bytesOf : Nat → Nat → List Nat
  | 0, _ => []
  | n + 1, w => w % 256 :: bytesOf n (w / 256)

/-- The text that the first `nbits` bits of `w` carry. -/
def textOfBits (nbits w : Nat) : Text := ((bytesOf ((nbits + 7) / 8) w).takeWhile (· ≠ 0)).map Char.ofNat

/-- The number that carries a text, its first character in bits 7..0. -/
def bitsOfText : Text → Nat
  | [] => 0
  | c :: cs => c.toNat % 256 + 256 * bitsOfText cs

/-- The instruction the decoder reads from the source line that `w` carries, with an empty label table. -/
def decodeTableWord (nbits w : Nat) : Option Instr :=
  match decodeLine [] (textOfBits nbits w) with
  | some (.op i) => some i
  | _ => none

/-! ## The encoder -/

/-- The name of a register (10_state.md R23). -/
def registerName (r : Reg) : Token := (registerTable.map Prod.fst).getD r.val []

/-- The ASCII digit of a number below 10. -/
def digitChar (d : Nat) : Char := Char.ofNat ('0'.toNat + d)

/-- The decimal digits of `n`, no leading zeros, `0` for zero; `fuel` bounds their number. -/
def decimalDigits : Nat → Nat → Text
  | 0, _ => []
  | fuel + 1, n => if n < 10 then [digitChar n] else decimalDigits fuel (n / 10) ++ [digitChar (n % 10)]

/-- The signed decimal representation: `-` for a negative value, then the digits of the absolute value (44_system.md
R181; also the literals of 30_encoding.md R87). Ten digits hold every magnitude below 2^32. -/
def decimalText (n : Int) : Text :=
  if n < 0 then '-' :: decimalDigits 10 n.natAbs else decimalDigits 10 n.natAbs

/-- A value operand written as a decimal literal, read signed. -/
def encodeVal (v : Word) : Token := decimalText v.toInt

/-- A memory operand `off(base)` (30_encoding.md R88). -/
def encodeMem (off : Word) (base : Reg) : Token := encodeVal off ++ '(' :: (registerName base ++ [')'])

/-- The mnemonic of an instruction (00_scope.md R2). -/
def encodeMnemonic (i : Instr) : Token :=
  match i with
  | .add _ _ _ => ['a', 'd', 'd']
  | .addu _ _ _ => ['a', 'd', 'd', 'u']
  | .sub _ _ _ => ['s', 'u', 'b']
  | .subu _ _ _ => ['s', 'u', 'b', 'u']
  | .addi _ _ _ => ['a', 'd', 'd', 'i']
  | .addiu _ _ _ => ['a', 'd', 'd', 'i', 'u']
  | .mul _ _ _ => ['m', 'u', 'l']
  | .and _ _ _ => ['a', 'n', 'd']
  | .or _ _ _ => ['o', 'r']
  | .xor _ _ _ => ['x', 'o', 'r']
  | .sll _ _ _ => ['s', 'l', 'l']
  | .srl _ _ _ => ['s', 'r', 'l']
  | .slt _ _ _ => ['s', 'l', 't']
  | .slti _ _ _ => ['s', 'l', 't', 'i']
  | .lui _ _ => ['l', 'u', 'i']
  | .li _ _ => ['l', 'i']
  | .la _ _ => ['l', 'a']
  | .move _ _ => ['m', 'o', 'v', 'e']
  | .lw _ _ _ => ['l', 'w']
  | .sw _ _ _ => ['s', 'w']
  | .lb _ _ _ => ['l', 'b']
  | .sb _ _ _ => ['s', 'b']
  | .beq _ _ _ => ['b', 'e', 'q']
  | .bne _ _ _ => ['b', 'n', 'e']
  | .j _ => ['j']
  | .jal _ => ['j', 'a', 'l']
  | .jr _ => ['j', 'r']
  | .syscall => ['s', 'y', 's', 'c', 'a', 'l', 'l']
  | .other m _ => m

/-- The operand tokens of an instruction, in the order of its form (30_encoding.md R83). -/
def encodeOperands (i : Instr) : List Token :=
  match i with
  | .add rd rs rt => [registerName rd, registerName rs, registerName rt]
  | .addu rd rs rt => [registerName rd, registerName rs, registerName rt]
  | .sub rd rs rt => [registerName rd, registerName rs, registerName rt]
  | .subu rd rs rt => [registerName rd, registerName rs, registerName rt]
  | .addi rd rs v => [registerName rd, registerName rs, encodeVal v]
  | .addiu rd rs v => [registerName rd, registerName rs, encodeVal v]
  | .mul rd rs rt => [registerName rd, registerName rs, registerName rt]
  | .and rd rs rt => [registerName rd, registerName rs, registerName rt]
  | .or rd rs rt => [registerName rd, registerName rs, registerName rt]
  | .xor rd rs rt => [registerName rd, registerName rs, registerName rt]
  | .sll rd rs v => [registerName rd, registerName rs, encodeVal v]
  | .srl rd rs v => [registerName rd, registerName rs, encodeVal v]
  | .slt rd rs rt => [registerName rd, registerName rs, registerName rt]
  | .slti rd rs v => [registerName rd, registerName rs, encodeVal v]
  | .lui rd v => [registerName rd, encodeVal v]
  | .li rd v => [registerName rd, encodeVal v]
  | .la rd v => [registerName rd, encodeVal v]
  | .move rd rs => [registerName rd, registerName rs]
  | .lw rt off base => [registerName rt, encodeMem off base]
  | .sw rt off base => [registerName rt, encodeMem off base]
  | .lb rt off base => [registerName rt, encodeMem off base]
  | .sb rt off base => [registerName rt, encodeMem off base]
  | .beq rd rs v => [registerName rd, registerName rs, encodeVal v]
  | .bne rd rs v => [registerName rd, registerName rs, encodeVal v]
  | .j v => [encodeVal v]
  | .jal v => [encodeVal v]
  | .jr rs => [registerName rs]
  | .syscall => []
  | .other _ ops => ops

/-- The record of an instruction at an address (30_encoding.md R71). -/
def encode (i : Instr) (address : Word) (sourceLine : Nat) : Record :=
  ⟨address, encodeMnemonic i, encodeOperands i, sourceLine⟩

/-- The operand tokens, each after a comma and a space but the first, which follows a space only. -/
def joinOperands : Bool → List Token → Text
  | _, [] => []
  | first, t :: ts => (if first then [' '] else [',', ' ']) ++ t ++ joinOperands false ts

/-- The source line of an instruction: `mnemonic operand, operand, ...` (30_encoding.md R95). -/
def encodeLine (i : Instr) : Text := encodeMnemonic i ++ joinOperands true (encodeOperands i)

end Sys2Proof
end

