-- ==== Sys2Proof/WellFormed.lean ====
section
/-! DEFINITION. Well-formedness of tokens, records, instructions and Programs (30_encoding.md R71, R72, R91). Each check
is a Bool, so that a test decides it. -/

namespace Sys2Proof

/-- A token is a non-empty string with no whitespace and no comma (30_encoding.md R71). -/
def Token.wf (t : Token) : Bool := !t.isEmpty && t.all (fun c => !isSeparator c)

/-- The mnemonic and every operand token of a record are well-formed (30_encoding.md R71). -/
def Record.wf (I : Record) : Bool := Token.wf I.mnemonic && I.operands.all Token.wf

/-- The mnemonic is outside the table and no case variant of a table mnemonic (30_encoding.md R91, 44_system.md
R190). -/
def unrecognised (m : Token) : Bool := !tableMnemonics.contains m && !tableMnemonics.contains (asciiLower m)

/-- The checks on an instruction. The operands of the 28 table instructions are right by their types; the tokens of an
unrecognised mnemonic are checked. A shift amount above 31 is no matter of form: the token is a value like any other and
executing it is refused (40_arithmetic_logic.md R132, R133). -/
def Instr.wf (i : Instr) : Bool :=
  match i with
  | .other m ops => Token.wf m && ops.all Token.wf && unrecognised m
  | .add _ _ _ | .addu _ _ _ | .sub _ _ _ | .subu _ _ _ | .addi _ _ _ | .addiu _ _ _ | .mul _ _ _ | .and _ _ _
  | .or _ _ _ | .xor _ _ _ | .sll _ _ _ | .srl _ _ _ | .slt _ _ _ | .slti _ _ _ | .lui _ _ | .li _ _ | .la _ _
  | .move _ _ | .lw _ _ _ | .sw _ _ _ | .lb _ _ _ | .sb _ _ _ | .beq _ _ _ | .bne _ _ _ | .j _ | .jal _ | .jr _
  | .syscall => true

/-- Records stand at `n`, `n + 4`, ... with no wrap past `0xFFFFFFFC` (30_encoding.md R72). -/
def addressesFrom : Nat → List Record → Bool
  | _, [] => true
  | n, I :: rest => I.address.toNat == n && addressesFrom (n + 4) rest

/-- No name stands twice. -/
def distinctNames : List Token → Bool
  | [] => true
  | t :: rest => !rest.contains t && distinctNames rest

/-- Program well-formedness (30_encoding.md R71, R72): the k-th instruction stands at `TEXT_BASE + 4k` with no wrap,
every record is well-formed, label names are unique. -/
def Program.wf (P : Program) : Bool :=
  addressesFrom Config.textBase.toNat P.instrs && P.instrs.all Record.wf && distinctNames (P.labels.map Prod.fst)

end Sys2Proof
end

