-- ==== Sys2Proof/Machine/State.lean ====
section
/-! DEFINITION. The machine state (10_state.md R20 to R30, R42), why a step can stop, and the state after reset. -/

namespace Sys2Proof.Machine

/-- The run status (10_state.md R28). -/
inductive Status
  /-- steps execute instructions -/
  | running
  /-- an exit syscall executed (44_system.md R183) -/
  | exited
  /-- a fetch found no instruction at `pc` (10_state.md R36) -/
  | ended
  /-- a runtime fault occurred at `fpc`, with a message (60_exceptions.md R203) -/
  | faulted (fpc : Word) (msg : Text)
  deriving DecidableEq, Repr

/-- The reasons a step stops with a fault: NONE. No memory access, no register read and no instruction of this hardware
stops the machine outside its own states: a runtime fault is the status `faulted`, a next state (60_exceptions.md R203,
R204; assumption 12). Safe. -/
inductive Fault
  deriving DecidableEq, Repr

/-- The cases to which the spec gives no meaning (00_scope.md R13, 60_exceptions.md R206). Every one is safe: the model
claims nothing there. -/
inductive Refusal
  /-- Raised by an arm of `exec` that has no meaning yet; no arm does. Safe. -/
  | notModelled (mnemonic : String)
  /-- Raised by a step whose mnemonic equals a table mnemonic only after ASCII case folding (30_encoding.md R91). Safe. -/
  | caseVariantMnemonic
  /-- Raised by `sll` and `srl` with a shift amount above 31 (40_arithmetic_logic.md R132, R133). Safe. -/
  | shiftOutOfRange
  /-- Raised by the load of a Program that breaks 30_encoding.md R72 (D26). Safe. -/
  | malformedProgram
  /-- Raised by `assemble` on a source text that the spec's loader refuses (30_encoding.md R74 to R80). Safe. -/
  | loader (r : LoaderRefusal)
  deriving DecidableEq, Repr

/-- The data memory `M`: the listed bytes, by address. An unlisted address reads as 0 (20_memory.md R50). The canonical
form is `Memory.wf`. -/
abbrev Memory := List Host.Cell

/-- The machine (10_state.md R20) with the loaded Program (10_state.md R20, R35; 30_encoding.md R70) and the model's own
counter of free values. -/
structure State where
  /-- the register file X, 32 words (R21); X[0] is stored and never read (R22) -/
  regs    : Vector Word 32
  /-- the program counter (R26) -/
  pc      : Word
  /-- the data memory M (20_memory.md R50) -/
  mem     : Memory
  /-- the output Out (R30) -/
  out     : List Byte
  /-- the run status (R28) -/
  status  : Status
  /-- the loaded Program (30_encoding.md R70) -/
  program : Program
  /-- the model's own field: how many free values have been drawn (assumption 4) -/
  draws   : Nat
  deriving DecidableEq, Repr

/-- The register file at reset: all 0 but `$sp = STACK_BASE` (10_state.md R42). -/
def resetRegs : Vector Word 32 := (Vector.replicate 32 (0 : Word)).set 29 Config.stackBase

/-- The machine right after reset, before any assemble: no Program is loaded (10_state.md R42, 70_reset_and_hazards.md
R230, R233). -/
def State.reset : State :=
  { regs := resetRegs, pc := Config.entryPc, mem := [], out := [], status := .running, program := Program.empty,
    draws := 0 }

/-- The three results of `assemble(source)` (30_encoding.md R82; 70_reset_and_hazards.md R231, R232). -/
inductive LoadOutcome
  /-- success: the state after the load -/
  | installed (s : State)
  /-- `AssemblerError`: the state is as before -/
  | failed (e : AssemblerError) (s : State)
  /-- the spec's loader gives the source no Program -/
  | refused (r : Refusal)
  deriving DecidableEq, Repr

end Sys2Proof.Machine
end

