-- ==== Sys2Proof/Machine/Ops.lean ====
section
/-! DEFINITION. The named operations over registers, memory, pc, output and status: the only places where these are
read or written. The runtime fault is one operation here, beside the reset that leaves it. -/

namespace Sys2Proof.Machine

/-! ## Registers (10_state.md R22, R37) -/

/-- `x[i]`: register 0 reads 0 (R22). -/
def State.reg (s : State) (r : Reg) : Word := if r = 0 then 0 else s.regs[r.val]

/-- `x[i] <- v`: a write to register 0 is discarded (R22). -/
def State.setReg (s : State) (r : Reg) (v : Word) : State :=
  if r = 0 then s else { s with regs := s.regs.set r.val v }

/-! ## Bit fields -/

/-- `sext_8` (00_scope.md R10). -/
def sext8 (b : Byte) : Word := b.signExtend 32

/-- `v[7:0]`. -/
def lowByte (v : Word) : Byte := v.extractLsb' 0 8

/-- The byte `v[31-8k : 24-8k]` that stands at offset `k` of a big-endian word (20_memory.md R57). -/
def wordByte (v : Word) (k : Nat) : Byte := v.extractLsb' (24 - 8 * k) 8

/-! ## Memory (20_memory.md R50 to R59) -/

/-- The byte listed at an address, 0 where none is listed (R50, R52). -/
def cellAt : Memory → Nat → Byte
  | [], _ => 0
  | (k, b) :: rest, a => if k = a then b else cellAt rest a

/-- Puts a cell before the first one with a higher address. -/
def insertCell : Memory → Nat → Byte → Memory
  | [], a, v => [(a, v)]
  | (k, b) :: rest, a, v => if a < k then (a, v) :: (k, b) :: rest else (k, b) :: insertCell rest a v

/-- Takes an address out of the list. -/
def eraseCell (m : Memory) (a : Nat) : Memory := m.filter (fun c => c.1 ≠ a)

/-- `readByte(a)` (R52). -/
def readByte (m : Memory) (a : Word) : Byte := cellAt m a.toNat

/-- `writeByte(a, v)` (R53): writing what an unlisted address reads as unlists it, so the canonical form is kept. -/
def writeByte (m : Memory) (a : Word) (v : Byte) : Memory :=
  if v = 0 then eraseCell m a.toNat else insertCell (eraseCell m a.toNat) a.toNat v

/-- `readWord(a)`: four bytes, the most significant at the lowest address, addresses wrapping (R54). -/
def readWord (m : Memory) (a : Word) : Word :=
  readByte m a ++ readByte m (a + 1) ++ readByte m (a + 2) ++ readByte m (a + 3)

/-- `writeWord(a, v)`: four byte writes, the most significant byte at `a` (R55). -/
def writeWord (m : Memory) (a : Word) (v : Word) : Memory :=
  writeByte (writeByte (writeByte (writeByte m a (wordByte v 0)) (a + 1) (wordByte v 1)) (a + 2) (wordByte v 2))
    (a + 3) (wordByte v 3)

/-- Writes bytes at their addresses, in order: the data image (70_reset_and_hazards.md R231). -/
def writeImage (m : Memory) (image : List (Word × Byte)) : Memory :=
  image.foldl (fun m c => writeByte m c.1 c.2) m

/-- The canonical form of memory: addresses strictly rise, no listed byte is 0 (an unlisted address reads 0), and every
address is inside the 2^32-byte space (R50). -/
abbrev Memory.wf (m : Memory) : Prop :=
  m.Pairwise (fun c d => c.1 < d.1) ∧ ∀ c ∈ m, c.2 ≠ 0 ∧ c.1 < 2 ^ 32

/-- The state with another memory. -/
def State.setMem (s : State) (m : Memory) : State := { s with mem := m }

/-! ## Program counter, output, status -/

/-- `pc <- target` (00_scope.md R11). -/
def State.setPc (s : State) (target : Word) : State := { s with pc := target }

/-- `wrap32(pc + 4)`: the address of the next instruction (10_state.md R26). -/
def State.nextPc (s : State) : Word := s.pc + Config.instrSize

/-- The default pc update, `pc <- wrap32(pc + 4)` (10_state.md R26). -/
def State.advance (s : State) : State := s.setPc s.nextPc

/-- `emit(bytes)`: appends to the output (10_state.md R30). -/
def State.emit (s : State) (bytes : List Byte) : State := { s with out := s.out ++ bytes }

/-- `status <- v`. -/
def State.setStatus (s : State) (v : Status) : State := { s with status := v }

/-! ## The runtime fault (60_exceptions.md R201 to R204) -/

/-- TAKING A RUNTIME FAULT: nothing of the instruction is committed, `pc` keeps the faulting address, and the status
becomes `Faulted(pc, message)` (R203). The message is a free value, drawn with the model's counter (assumption 4). No
handler exists; only `resetOp` and a load leave the status (R204). -/
def State.raiseFault (s : State) (k : FaultKind) (I : Record) : State :=
  { s with status := .faulted s.pc (Config.faultMessage s.draws k I), draws := s.draws + 1 }

/-! ## Reset and load (70_reset_and_hazards.md R230, R231) -/

/-- `reset()`: every piece of state at its reset value; the loaded Program is kept, its data image is not reinstalled
(R230, D22). The model's counter is kept, so that later free values are fresh. -/
def resetOp (s : State) : State := { State.reset with program := s.program, draws := s.draws }

/-- Installs a Program and its data image on a reset machine (R231, D27). -/
def installProgram (s : State) (P : Program) : State :=
  let r := resetOp { s with program := P }
  { r with mem := writeImage r.mem P.data }

end Sys2Proof.Machine
end

