-- ==== Sys2Proof/Machine/Operands.lean ====
section
/-! DEFINITION. What execution does with resolved operands: the effective address of a memory operand, the shift amount,
and a value destination. The operand tokens are resolved in Decode.lean (30_encoding.md R84 to R90). -/

namespace Sys2Proof.Machine

/-- `ea = wrap32(x[base] + off)`, the only addressing mode (42_load_store.md R160). -/
def effectiveAddress (s : State) (off : Word) (base : Reg) : Word := s.reg base + off

/-- A shift amount is in range from 0 to 31 (40_arithmetic_logic.md R132). -/
def shiftInRange (shamt : Word) : Bool := decide (shamt.toNat ≤ 31)

/-- Writes a result to the destination and goes on to the next instruction: the end of every instruction that writes a
register and transfers no control (40_arithmetic_logic.md, 41_pseudo_moves.md, 42_load_store.md). -/
def State.complete (s : State) (rd : Reg) (v : Word) : State := (s.setReg rd v).advance

end Sys2Proof.Machine
end

