-- ==== Sys2Proof/Machine/Flags.lean ====
section
/-! DEFINITION. The comparisons. The hardware has no flags or condition codes (10_state.md R31): a comparison's result
goes to a general register (`slt`, `slti`) or straight to the branch (`beq`, `bne`). -/

namespace Sys2Proof.Machine

/-- `SLT(a, b)`: 1 if `s(a) < s(b)`, else 0 (40_arithmetic_logic.md R120). -/
def signedLess (a b : Word) : Word := if a.toInt < b.toInt then 1 else 0

/-- `EQ(a, b)`, on all 32 bits (40_arithmetic_logic.md R120). -/
def wordsEqual (a b : Word) : Bool := a == b

end Sys2Proof.Machine
end

