-- ==== Sys2Proof/Machine/Alu.lean ====
section
/-! DEFINITION. The ALU of 10_state.md R38 and 40_arithmetic_logic.md R120, and the shapes its instructions share. -/

namespace Sys2Proof.Machine

/-- The ALU's operation select (10_state.md R38). -/
inductive AluOp
  | add
  | sub
  | mul
  | and
  | or
  | xor
  | sll
  | srl
  | slt
  | lui
  deriving DecidableEq, Repr

/-- `ALU(op, a, b)` (40_arithmetic_logic.md R120). A shift amount is `b`, in 0..31 at every use; `LUI` takes its operand
as `b` and ignores `a`. No operation faults and none has a flag output. -/
def alu (op : AluOp) (a b : Word) : Word :=
  match op with
  | .add => a + b
  | .sub => a - b
  | .mul => a * b
  | .and => a &&& b
  | .or => a ||| b
  | .xor => a ^^^ b
  | .sll => a <<< b.toNat
  | .srl => a >>> b.toNat
  | .slt => signedLess a b
  | .lui => b <<< 16

/-- `x[rd] <- ALU(op, x[rs], x[rt])` and on to the next instruction. -/
def aluRegReg (op : AluOp) (rd rs rt : Reg) (s : State) : Host.Outcome State Fault Refusal :=
  .next (s.complete rd (alu op (s.reg rs) (s.reg rt)))

/-- `x[rd] <- ALU(op, x[rs], v)` and on to the next instruction. -/
def aluRegVal (op : AluOp) (rd rs : Reg) (v : Word) (s : State) : Host.Outcome State Fault Refusal :=
  .next (s.complete rd (alu op (s.reg rs) v))

/-- A shift by a value operand: refused above 31 (40_arithmetic_logic.md R132, R133). -/
def aluShift (op : AluOp) (rd rs : Reg) (shamt : Word) (s : State) : Host.Outcome State Fault Refusal :=
  if shiftInRange shamt then aluRegVal op rd rs shamt s else .refused .shiftOutOfRange

end Sys2Proof.Machine
end

