-- ==== Sys2Proof/Machine/Arithmetic.lean ====
section
/-! DEFINITION. Three-register and register-immediate arithmetic, multiply and upper immediate
(40_arithmetic_logic.md sections 2 to 4 and 8). -/

namespace Sys2Proof.Machine

/-- R122. -/
def execAdd (rd rs rt : Reg) (s : State) : Host.Outcome State Fault Refusal := aluRegReg .add rd rs rt s

/-- R123: the same operation as `add`. -/
def execAddu (rd rs rt : Reg) (s : State) : Host.Outcome State Fault Refusal := aluRegReg .add rd rs rt s

/-- R124. -/
def execSub (rd rs rt : Reg) (s : State) : Host.Outcome State Fault Refusal := aluRegReg .sub rd rs rt s

/-- R125: the same operation as `sub`. -/
def execSubu (rd rs rt : Reg) (s : State) : Host.Outcome State Fault Refusal := aluRegReg .sub rd rs rt s

/-- R126: the immediate is a full 32-bit value. -/
def execAddi (rd rs : Reg) (imm : Word) (s : State) : Host.Outcome State Fault Refusal := aluRegVal .add rd rs imm s

/-- R127: the same operation as `addi`. -/
def execAddiu (rd rs : Reg) (imm : Word) (s : State) : Host.Outcome State Fault Refusal := aluRegVal .add rd rs imm s

/-- R128: the low 32 bits of the product. -/
def execMul (rd rs rt : Reg) (s : State) : Host.Outcome State Fault Refusal := aluRegReg .mul rd rs rt s

/-- R136. -/
def execLui (rd : Reg) (imm : Word) (s : State) : Host.Outcome State Fault Refusal :=
  .next (s.complete rd (alu .lui 0 imm))

end Sys2Proof.Machine
end

