-- ==== Sys2Proof/Machine/Control.lean ====
section
/-! DEFINITION. Control transfer (43_control.md). A target is an absolute address (R170); there is no delay slot (R176). -/

namespace Sys2Proof.Machine

/-- Goes to the target where the condition holds, else to the next instruction (R171, R172). -/
def branchIf (taken : Bool) (target : Word) (s : State) : Host.Outcome State Fault Refusal :=
  .next (if taken then s.setPc target else s.advance)

/-- R171. -/
def execBeq (rs rt : Reg) (target : Word) (s : State) : Host.Outcome State Fault Refusal :=
  branchIf (wordsEqual (s.reg rs) (s.reg rt)) target s

/-- R172. -/
def execBne (rs rt : Reg) (target : Word) (s : State) : Host.Outcome State Fault Refusal :=
  branchIf (!wordsEqual (s.reg rs) (s.reg rt)) target s

/-- R173. -/
def execJ (target : Word) (s : State) : Host.Outcome State Fault Refusal := .next (s.setPc target)

/-- R174: the link value is `pc + 4`, in register 31. -/
def execJal (target : Word) (s : State) : Host.Outcome State Fault Refusal :=
  .next ((s.setReg Config.ra s.nextPc).setPc target)

/-- R175: the register is an unsigned address with no alignment check. -/
def execJr (rs : Reg) (s : State) : Host.Outcome State Fault Refusal := .next (s.setPc (s.reg rs))

end Sys2Proof.Machine
end

