-- ==== Sys2Proof/Machine/LoadStore.lean ====
section
/-! DEFINITION. Loads and stores (42_load_store.md). No access faults and none needs alignment (20_memory.md R51, R59). -/

namespace Sys2Proof.Machine

/-- R161: the big-endian word at the effective address. -/
def execLw (rt : Reg) (off : Word) (base : Reg) (s : State) : Host.Outcome State Fault Refusal :=
  .next (s.complete rt (readWord s.mem (effectiveAddress s off base)))

/-- R162: stores the word, most significant byte first. -/
def execSw (rt : Reg) (off : Word) (base : Reg) (s : State) : Host.Outcome State Fault Refusal :=
  .next (s.setMem (writeWord s.mem (effectiveAddress s off base) (s.reg rt))).advance

/-- R163: the byte at the effective address, sign-extended. -/
def execLb (rt : Reg) (off : Word) (base : Reg) (s : State) : Host.Outcome State Fault Refusal :=
  .next (s.complete rt (sext8 (readByte s.mem (effectiveAddress s off base))))

/-- R164: stores the low byte only. -/
def execSb (rt : Reg) (off : Word) (base : Reg) (s : State) : Host.Outcome State Fault Refusal :=
  .next (s.setMem (writeByte s.mem (effectiveAddress s off base) (lowByte (s.reg rt)))).advance

end Sys2Proof.Machine
end

