-- ==== Sys2Proof/Machine/Logic.lean ====
section
/-! DEFINITION. Bitwise logic, shifts and comparisons (40_arithmetic_logic.md sections 5 to 7). -/

namespace Sys2Proof.Machine

/-- R129. -/
def execAnd (rd rs rt : Reg) (s : State) : Host.Outcome State Fault Refusal := aluRegReg .and rd rs rt s

/-- R130. -/
def execOr (rd rs rt : Reg) (s : State) : Host.Outcome State Fault Refusal := aluRegReg .or rd rs rt s

/-- R131. -/
def execXor (rd rs rt : Reg) (s : State) : Host.Outcome State Fault Refusal := aluRegReg .xor rd rs rt s

/-- R132: refused for a shift amount above 31. -/
def execSll (rd rs : Reg) (shamt : Word) (s : State) : Host.Outcome State Fault Refusal := aluShift .sll rd rs shamt s

/-- R133: zero fill; refused for a shift amount above 31. -/
def execSrl (rd rs : Reg) (shamt : Word) (s : State) : Host.Outcome State Fault Refusal := aluShift .srl rd rs shamt s

/-- R134: signed comparison. -/
def execSlt (rd rs rt : Reg) (s : State) : Host.Outcome State Fault Refusal := aluRegReg .slt rd rs rt s

/-- R135: signed comparison with a full 32-bit value. -/
def execSlti (rd rs : Reg) (imm : Word) (s : State) : Host.Outcome State Fault Refusal := aluRegVal .slt rd rs imm s

end Sys2Proof.Machine
end

