-- ==== Sys2Proof/Machine/Moves.lean ====
section
/-! DEFINITION. The pseudo-instruction moves, each a single instruction of this hardware (41_pseudo_moves.md). -/

namespace Sys2Proof.Machine

/-- R150. -/
def execLi (rd : Reg) (imm : Word) (s : State) : Host.Outcome State Fault Refusal := .next (s.complete rd imm)

/-- R151. -/
def execLa (rd : Reg) (target : Word) (s : State) : Host.Outcome State Fault Refusal := .next (s.complete rd target)

/-- R152. -/
def execMove (rd rs : Reg) (s : State) : Host.Outcome State Fault Refusal := .next (s.complete rd (s.reg rs))

end Sys2Proof.Machine
end

