-- ==== Sys2Proof/Machine/System.lean ====
section
/-! DEFINITION. The syscall services and the unrecognised mnemonics (44_system.md). -/

namespace Sys2Proof.Machine

/-- The byte of an ASCII character (10_state.md R30): the low 8 bits of its code. -/
def charByte (c : Char) : Byte := BitVec.ofNat 8 c.toNat

/-- The bytes of the signed decimal representation of a word (R181). -/
def printInt (v : Word) : List Byte := (decimalText v.toInt).map charByte

/-- `cstring`: the bytes from `a` up to the first zero byte, at most `fuel` of them examined, addresses wrapping
(R182). -/
def cstring (m : Memory) : Nat → Word → List Byte
  | 0, _ => []
  | fuel + 1, a => if readByte m a = 0 then [] else readByte m a :: cstring m fuel (a + 1)

/-- The effect of a syscall service before the pc advances (R180 to R185): 1 print_int, 4 print_string, 10 exit,
11 print_char, any other code nothing. The code is compared in full. -/
def syscallService (code arg : Word) (s : State) : State :=
  if code = 1 then s.emit (printInt arg)
  else if code = 4 then s.emit (cstring s.mem Config.printStringCap arg)
  else if code = 10 then s.setStatus .exited
  else if code = 11 then s.emit [lowByte arg]
  else s

/-- R180: the service code is in `$v0`, the argument in `$a0`; the pc advances for every service. -/
def execSyscall (s : State) : Host.Outcome State Fault Refusal :=
  .next (syscallService (s.reg Config.v0) (s.reg Config.a0) s).advance

/-- R190: an unrecognised mnemonic is a no-op; its operand tokens are not examined. -/
def execOther (_mnemonic : Token) (_operands : List Token) (s : State) : Host.Outcome State Fault Refusal :=
  .next s.advance

end Sys2Proof.Machine
end

