-- ==== Sys2Proof/Machine/Dispatch.lean ====
section
/-! DEFINITION. The meaning of every instruction: one arm per constructor, one direct call each (30_encoding.md R91). -/

namespace Sys2Proof.Machine

def exec (i : Instr) (s : State) : Host.Outcome State Fault Refusal :=
  match i with
  | .add rd rs rt => Sys2Proof.Machine.execAdd rd rs rt s
  | .addu rd rs rt => Sys2Proof.Machine.execAddu rd rs rt s
  | .sub rd rs rt => Sys2Proof.Machine.execSub rd rs rt s
  | .subu rd rs rt => Sys2Proof.Machine.execSubu rd rs rt s
  | .addi rd rs imm => Sys2Proof.Machine.execAddi rd rs imm s
  | .addiu rd rs imm => Sys2Proof.Machine.execAddiu rd rs imm s
  | .mul rd rs rt => Sys2Proof.Machine.execMul rd rs rt s
  | .and rd rs rt => Sys2Proof.Machine.execAnd rd rs rt s
  | .or rd rs rt => Sys2Proof.Machine.execOr rd rs rt s
  | .xor rd rs rt => Sys2Proof.Machine.execXor rd rs rt s
  | .sll rd rs shamt => Sys2Proof.Machine.execSll rd rs shamt s
  | .srl rd rs shamt => Sys2Proof.Machine.execSrl rd rs shamt s
  | .slt rd rs rt => Sys2Proof.Machine.execSlt rd rs rt s
  | .slti rd rs imm => Sys2Proof.Machine.execSlti rd rs imm s
  | .lui rd imm => Sys2Proof.Machine.execLui rd imm s
  | .li rd imm => Sys2Proof.Machine.execLi rd imm s
  | .la rd target => Sys2Proof.Machine.execLa rd target s
  | .move rd rs => Sys2Proof.Machine.execMove rd rs s
  | .lw rt off base => Sys2Proof.Machine.execLw rt off base s
  | .sw rt off base => Sys2Proof.Machine.execSw rt off base s
  | .lb rt off base => Sys2Proof.Machine.execLb rt off base s
  | .sb rt off base => Sys2Proof.Machine.execSb rt off base s
  | .beq rs rt target => Sys2Proof.Machine.execBeq rs rt target s
  | .bne rs rt target => Sys2Proof.Machine.execBne rs rt target s
  | .j target => Sys2Proof.Machine.execJ target s
  | .jal target => Sys2Proof.Machine.execJal target s
  | .jr rs => Sys2Proof.Machine.execJr rs s
  | .syscall => Sys2Proof.Machine.execSyscall s
  | .other mnemonic operands => Sys2Proof.Machine.execOther mnemonic operands s

end Sys2Proof.Machine
end

