-- ==== Sys2Proof/Machine/Fetch.lean ====
section
/-! DEFINITION. Fetch from the instruction store (10_state.md R36; 30_encoding.md R73) and the host's view of it. -/

namespace Sys2Proof.Machine

/-- The instruction whose address equals `pc` exactly (30_encoding.md R73). -/
def fetch (P : Program) (pc : Word) : Option Record := P.instrs.find? (fun I => I.address == pc)

/-- The map from instruction address to source line, metadata for the host (30_encoding.md R70, 10_state.md R41). -/
def sourceLineAt (P : Program) (a : Word) : Option Nat := (fetch P a).map Record.sourceLine

/-- The current fault, where there is one (10_state.md R41). -/
def currentFault (s : State) : Option (Word × Text) :=
  match s.status with
  | .faulted fpc msg => some (fpc, msg)
  | .running | .exited | .ended => none

/-- A fetch found no instruction: the run ends, nothing else changes (10_state.md R36). -/
def endRun (s : State) : State := s.setStatus .ended

/-- The source line that bits carry, as a one-instruction Program at `TEXT_BASE` (assumptions 1 and 2). -/
def programOfBits (nbits w : Nat) : Program :=
  match tokenise (textOfBits nbits w) with
  | [] => Program.empty
  | m :: ops => { Program.empty with instrs := [⟨Config.textBase, m, ops, 1⟩] }

end Sys2Proof.Machine
end

