-- ==== Sys2Proof/Machine/Execute.lean ====
section
/-! DEFINITION. `execute(I, S, P)` of 30_encoding.md R91 and the step of 10_state.md R36. -/

namespace Sys2Proof.Machine

/-- `execute(I, S, P)`: decodes the record against the label table; a decoded operation has its meaning, a decoding fault
is the runtime fault with nothing else committed (60_exceptions.md R203), and what the decoder refuses is refused
(30_encoding.md R91). -/
def execute (I : Record) (s : State) : Host.Outcome State Fault Refusal :=
  match decode I s.program.labels with
  | .op i => exec i s
  | .fault k => .next (s.raiseFault k I)
  | .refused .caseVariantMnemonic => .refused .caseVariantMnemonic

/-- A step of a running machine: the instruction at `pc`, or the end of the run where there is none (10_state.md
R36). -/
def stepRunning (s : State) : Host.Outcome State Fault Refusal :=
  match fetch s.program s.pc with
  | some I => execute I s
  | none => .next (endRun s)

/-- One step: a stopped machine changes nothing (10_state.md R29, R36; 60_exceptions.md R204). -/
def stepState (s : State) : Host.Outcome State Fault Refusal :=
  match s.status with
  | .running => stepRunning s
  | .exited | .ended | .faulted _ _ => .next s

/-- Loads the one-instruction Program that bits carry and points the machine at it (assumption 1): the step that follows
runs it. -/
def loadFetchWord (s : State) (nbits w : Nat) : State :=
  { s with program := programOfBits nbits w, pc := Config.textBase, status := .running }

end Sys2Proof.Machine
end

