-- ==== Sys2Proof/Machine/Step.lean ====
section
/-! DEFINITION. The step function, and the placing of one instruction where the next step fetches. -/

namespace Sys2Proof.Machine

/-- One step of the machine (10_state.md R36). -/
def step : State → Host.Outcome State Fault Refusal := stepState

/-- `s` with the instruction that the low `nbits` bits of `w` carry loaded as a Program, so that the very next step runs
it (assumptions 1 and 2). -/
def State.withFetchWord (s : State) (nbits w : Nat) : State := loadFetchWord s nbits w

end Sys2Proof.Machine
end

