-- ==== Sys2Proof/Machine/Loader.lean ====
section
/-! DEFINITION. The loader (assembler) that builds a Program from source text (30_encoding.md R74 to R82), and the load
of a Program into the machine (70_reset_and_hazards.md R231, R232; D27). -/

namespace Sys2Proof.Machine

/-! ## Text -/

/-- Splits at line feeds (R74; assumption 6). -/
def splitLines : Text → List Text
  | [] => [[]]
  | c :: cs =>
    if c = '\n' then [] :: splitLines cs
    else
      match splitLines cs with
      | [] => [[c]]
      | l :: ls => (c :: l) :: ls

/-- Removes whitespace at both ends. -/
def trim (t : Text) : Text := ((t.dropWhile isSpace).reverse.dropWhile isSpace).reverse

/-- The double quote. -/
def quoteChar : Char := Char.ofNat 34

/-- A position lies between double quotes: an odd number of quotes before it and one after it (assumption 7). -/
def betweenQuotes (before after : Text) : Bool := before.count quoteChar % 2 == 1 && after.contains quoteChar

/-- The line holds a `#` that a backslash precedes or that lies between double quotes; `before` is the text already
passed, latest character first (R74, D23). -/
def hasEscapedHash : Text → Text → Bool
  | _, [] => false
  | before, c :: cs =>
    (c == '#' && (before.head? == some '\\' || betweenQuotes before cs)) || hasEscapedHash (c :: before) cs

/-- Removes everything from the first `#` to the end of the line (R74). -/
def stripComment (line : Text) : Text := line.takeWhile (· ≠ '#')

/-! ## Data directives (R77, R78) -/

/-- Scans after the opening quote; the Bool says that a backslash has just been read. `\n` is 10 and `\t` is 9; every
other character is the low 8 bits of its code point (R77). DESIGN CHOICE: where a bad backslash sequence stands before a
missing closing quote the sequence decides, since R77 gives the two no order (safe: it refuses; assumption 8). -/
def scanString : Bool → Text → List Byte → StringScan
  | false, [], _ => .unterminated
  | true, [], _ => .badEscape
  | true, c :: cs, acc =>
    if c = 'n' then scanString false cs (acc ++ [10])
    else if c = 't' then scanString false cs (acc ++ [9])
    else .badEscape
  | false, c :: cs, acc =>
    if c = quoteChar then .closed acc cs
    else if c = '\\' then scanString true cs acc
    else scanString false cs (acc ++ [BitVec.ofNat 8 c.toNat])

/-- The bytes at `a`, `a + 1`, ... (R77). -/
def bytesAt : Word → List Byte → List (Word × Byte)
  | _, [] => []
  | a, b :: bs => (a, b) :: bytesAt (a + 1) bs

/-- Writes bytes at the data pointer and advances it by their number. -/
def emitData (bytes : List Byte) (st : LoaderState) : LoaderState :=
  { st with data := st.data ++ bytesAt st.dataPtr bytes, dataPtr := st.dataPtr + BitVec.ofNat 32 bytes.length }

/-- An `AssemblerError` at a line (R82; assumption 9). -/
def assemblerError (k : AssemblerErrorKind) (n : Nat) (line : Text) : LoaderStop :=
  .error ⟨n, Config.assemblerMessage k n line⟩

/-- `.ascii` and `.asciiz`: `rest` is the text after the directive, trimmed; `.asciiz` adds a zero byte. With fewer than
two quotes one is missing, wherever the other stands (R77). DESIGN CHOICE: two quotes or more with text before the first
are refused (assumption 8). -/
def stringDirective (zero : Bool) (n : Nat) (line rest : Text) (st : LoaderState) : Except LoaderStop LoaderState :=
  match rest with
  | [] => .error (assemblerError .malformedString n line)
  | c :: cs =>
    if c = quoteChar then
      match scanString false cs [] with
      | .closed bytes after =>
        if trim after = [] then .ok (emitData (bytes ++ if zero then [0] else []) st)
        else .error (.refused .textAroundString)
      | .unterminated => .error (assemblerError .malformedString n line)
      | .badEscape => .error (.refused .stringEscape)
    else if rest.count quoteChar < 2 then .error (assemblerError .malformedString n line)
    else .error (.refused .textAroundString)

/-- A token that begins like a number: an optional sign, then a digit (assumption 8). -/
def looksNumeric (t : Text) : Bool :=
  match t with
  | [] => false
  | c :: cs => if c = '-' ∨ c = '+' then (cs.head?.bind digitValue).isSome else (digitValue c).isSome

/-- The four big-endian bytes of a word (R78). -/
def wordBytes (v : Word) : List Byte := [wordByte v 0, wordByte v 1, wordByte v 2, wordByte v 3]

/-- `.word`: one decimal literal, four big-endian bytes, no alignment (R78; assumption 8). -/
def wordDirective (n : Nat) (line rest : Text) (st : LoaderState) : Except LoaderStop LoaderState :=
  if rest = [] ∨ rest.any isSeparator then .error (.refused .wordList)
  else
    match literalValue rest with
    | some v => .ok (emitData (wordBytes v) st)
    | none =>
      if looksNumeric rest then .error (.refused .wordLiteral)
      else .error (assemblerError .nonNumericWord n line)

/-! ## Lines (R74 to R80) -/

/-- A line of the data section (R77, R78, R80). -/
def dataLine (n : Nat) (line word rest : Text) (st : LoaderState) : Except LoaderStop LoaderState :=
  if word = ['.', 'a', 's', 'c', 'i', 'i'] then stringDirective false n line rest st
  else if word = ['.', 'a', 's', 'c', 'i', 'i', 'z'] then stringDirective true n line rest st
  else if word = ['.', 'w', 'o', 'r', 'd'] then wordDirective n line rest st
  else .error (.refused .dataLine)

/-- A line of the text section: one instruction record, neither mnemonic nor operands validated (R79). -/
def textLine (n : Nat) (line : Text) (st : LoaderState) : Except LoaderStop LoaderState :=
  match tokenise line with
  | [] => .error (.refused .emptyInstruction)
  | m :: ops =>
    if m.head? = some '.' then .error (.refused .textDirective)
    else
      .ok { st with instrs := st.instrs ++ [⟨st.textPtr, m, ops, n⟩], textPtr := st.textPtr + Config.instrSize }

/-- A section switch, or a line of the current section (R75, R77 to R80). -/
def contentLine (n : Nat) (line : Text) (st : LoaderState) : Except LoaderStop LoaderState :=
  let word := line.takeWhile (fun c => !isSpace c)
  let rest := trim (line.dropWhile (fun c => !isSpace c))
  if word = ['.', 'd', 'a', 't', 'a'] then
    if rest = [] then .ok { st with sect := .data } else .error (.refused .sectionArgument)
  else if word = ['.', 't', 'e', 'x', 't'] then
    if rest = [] then .ok { st with sect := .text } else .error (.refused .sectionArgument)
  else
    match st.sect with
    | .text => textLine n line st
    | .data => dataLine n line word rest st

/-- The current section's pointer (R75, R76). -/
def currentPtr (st : LoaderState) : Word :=
  match st.sect with
  | .text => st.textPtr
  | .data => st.dataPtr

/-- Binds a label to the current section's pointer (R76, D26). -/
def bindLabel (name : Token) (st : LoaderState) : Except LoaderStop LoaderState :=
  if name = [] ∨ name.any isSpace then .error (.refused .badLabel)
  else if (lookupToken name st.labels).isSome then .error (.refused .duplicateLabel)
  else .ok { st with labels := st.labels ++ [(name, currentPtr st)] }

/-- Content after a label, or a whole line without one; nothing where it is empty. -/
def optionalContent (n : Nat) (line : Text) (st : LoaderState) : Except LoaderStop LoaderState :=
  if line = [] then .ok st else contentLine n line st

/-- A line with its comment removed and trimmed: an optional label up to the first `:`, then the content, with no second
label scan (R76). -/
def labelledLine (n : Nat) (line : Text) (st : LoaderState) : Except LoaderStop LoaderState :=
  match line.dropWhile (· ≠ ':') with
  | [] => optionalContent n line st
  | _ :: after =>
    let before := line.takeWhile (· ≠ ':')
    if betweenQuotes before after then .error (.refused .badLabel)
    else
      match bindLabel (trim before) st with
      | .error e => .error e
      | .ok st' => optionalContent n (trim after) st'

/-- One line of the source text (R74). -/
def loadLine (n : Nat) (line : Text) (st : LoaderState) : Except LoaderStop LoaderState :=
  if hasEscapedHash [] line then .error (.refused .escapedHash) else labelledLine n (trim (stripComment line)) st

/-- The lines in order, numbered from `n`; the first that stops decides. -/
def loadLines : Nat → List Text → LoaderState → Except LoaderStop LoaderState
  | _, [], st => .ok st
  | n, line :: rest, st =>
    match loadLine n line st with
    | .error e => .error e
    | .ok st' => loadLines (n + 1) rest st'

/-- The loader before the first line: section `.text`, both pointers at their bases (R75). -/
def loaderStart : LoaderState :=
  { sect := .text, textPtr := Config.textBase, dataPtr := Config.dataBase, instrs := [], labels := [], data := [] }

/-- The Program of a source text, or why there is none (R74 to R82). Lines are numbered from 1. -/
def assemble (source : Text) : Except LoaderStop Program :=
  match loadLines 1 (splitLines source) loaderStart with
  | .ok st => .ok ⟨st.instrs, st.labels, st.data⟩
  | .error e => .error e

/-! ## Loading into the machine -/

/-- Loads a Program supplied directly; one that breaks R72 is refused (D26, D27). -/
def loadProgram (P : Program) (s : State) : LoadOutcome :=
  if P.wf then .installed (installProgram s P) else .refused .malformedProgram

/-- `assemble(source)`: installs the new Program, or changes nothing on an `AssemblerError`, or is refused
(70_reset_and_hazards.md R231, R232). -/
def assembleOp (source : Text) (s : State) : LoadOutcome :=
  match assemble source with
  | .ok P => loadProgram P s
  | .error (.error e) => .failed e s
  | .error (.refused r) => .refused (.loader r)

end Sys2Proof.Machine
end

