-- ==== Sys2Proof/Machine/Scheduler.lean ====
section
/-! DEFINITION. The host's controls around the block: its run mode is host state, not block state (60_exceptions.md R215,
70_reset_and_hazards.md R234; assumption 17). -/

namespace Sys2Proof.Machine

/-- The block and the host's run mode. DESIGN CHOICE: a stop request (the stop flag or cancellation signal of R34 and R215)
is no field and no command of its own; it is `setRunning(false)`, which clears the same Bool (assumption 17). -/
structure Scheduler where
  machine    : State
  continuous : Bool
  deriving DecidableEq, Repr

/-- One use of the host interface (10_state.md R41). -/
inductive HostCommand
  /-- `reset()` -/
  | reset
  /-- `assemble(source)` -/
  | assemble (source : Text)
  /-- `step()`: one step, applied synchronously (60_exceptions.md R212) -/
  | step
  /-- `setRunning(bool)`; with false it is also the stop request (assumption 17) -/
  | setRunning (on : Bool)
  /-- a yield point of the run loop: one step in continuous mode, else nothing (60_exceptions.md R215) -/
  | yieldPoint
  deriving DecidableEq, Repr

/-- A step of the block with the run mode unchanged. -/
def Scheduler.stepMachine (h : Scheduler) : Host.Outcome Scheduler Fault Refusal :=
  match step h.machine with
  | .next s => .next { h with machine := s }
  | .fault f => .fault f
  | .refused r => .refused r

/-- `assemble(source)`: a success stops a continuous run, then installs (R231, R234); an `AssemblerError` changes
nothing (R232). -/
def Scheduler.assembleSource (h : Scheduler) (source : Text) : Host.Outcome Scheduler Fault Refusal :=
  match assembleOp source h.machine with
  | .installed s => .next { machine := s, continuous := false }
  | .failed _ s => .next { h with machine := s }
  | .refused r => .refused r

/-- One host command (10_state.md R41). Commands act between two steps, never inside one (R215). -/
def Scheduler.command (h : Scheduler) (c : HostCommand) : Host.Outcome Scheduler Fault Refusal :=
  match c with
  | .reset => .next { h with machine := resetOp h.machine }
  | .assemble source => h.assembleSource source
  | .step => h.stepMachine
  | .setRunning on => .next { h with continuous := on }
  | .yieldPoint => if h.continuous then h.stepMachine else .next h

end Sys2Proof.Machine
end

