-- ==== Sys2Proof/Safety.lean ====
section
/-! DEFINITION. What counts as a safe state and a safe run, in the terms the claims use. -/

namespace Sys2Proof

open Sys2Proof.Machine

/-- The invariant of every state the machine reaches: memory in canonical form, the storage of register 0 at 0, and a
well-formed Program (20_memory.md R50, 10_state.md R22, 30_encoding.md R72). -/
def StateInv (s : State) : Prop := Memory.wf s.mem ∧ s.regs[0] = 0 ∧ s.program.wf = true

/-- The machine has stopped: only reset or a load leaves this (10_state.md R29, 60_exceptions.md R213). -/
def Stopped (s : State) : Prop := s.status ≠ .running

/-- The machine has stopped with a runtime fault (60_exceptions.md R203). -/
def FaultedAt (s : State) (fpc : Word) : Prop := ∃ msg, s.status = .faulted fpc msg

/-- `k` steps lead from `s` to `t`. -/
def RunsTo (k : Nat) (s t : State) : Prop := Host.Core.run Sys2Proof.core k s = .next t

/-- A safe run: `k` steps are all given a meaning by the spec, and no runtime fault occurred. -/
def SafeRun (k : Nat) (s : State) : Prop := ∃ t, RunsTo k s t ∧ ∀ fpc, ¬ FaultedAt t fpc

end Sys2Proof
end

