-- ==== Sys2Proof/Certificates/Slice0/Obligations.lean ====
section
/-! DEFINITION. The statements for the provers. Each formalises rules of spec/, named in its docstring. -/

namespace Sys2Proof.Claims

open Sys2Proof Sys2Proof.Machine

/-! ## Frames -/

/-- Memory (by its bytes), output, status and Program are unchanged. -/
def SameElsewhere (s t : State) : Prop :=
  (∀ a, readByte t.mem a = readByte s.mem a) ∧ t.out = s.out ∧ t.status = s.status ∧ t.program = s.program

/-- `exec i s` answers a next state in which `rd` holds `v` (nothing is written where `rd` is register 0), the pc is
`wrap32(pc + 4)`, and nothing else has changed. -/
def CompletesWriting (i : Instr) (s : State) (rd : Reg) (v : Word) : Prop :=
  ∃ t, exec i s = .next t ∧ t.pc = wrap32 (s.pc.toNat + 4) ∧
    (∀ r, t.reg r = if r = rd ∧ r ≠ 0 then v else s.reg r) ∧ SameElsewhere s t

/-- `exec i s` answers the next state that differs from `s` in the pc alone. -/
def CompletesGoingTo (i : Instr) (s : State) (target : Word) : Prop := exec i s = .next { s with pc := target }

/-- `exec i s` answers a next state in which the byte at each address `a` is `bytes a` where that is given and is
unchanged elsewhere, the pc is `wrap32(pc + 4)`, and nothing else has changed. -/
def CompletesStoring (i : Instr) (s : State) (bytes : Word → Option Byte) : Prop :=
  ∃ t, exec i s = .next t ∧ t.pc = wrap32 (s.pc.toNat + 4) ∧ (∀ r, t.reg r = s.reg r) ∧
    (∀ a, readByte t.mem a = (bytes a).getD (readByte s.mem a)) ∧
    t.out = s.out ∧ t.status = s.status ∧ t.program = s.program

/-! ## Operand tokens -/

/-- The token names register `r`. -/
def NamesReg (t : Token) (r : Reg) : Prop := t = registerName r

/-- The token names no register. -/
def NamesNoReg (t : Token) : Prop := ∀ r, t ≠ registerName r

/-- The token's value: its label's, or else its literal's. -/
def HasValue (labels : Labels) (t : Token) (v : Word) : Prop :=
  lookupToken t labels = some v ∨ lookupToken t labels = none ∧ literalValue t = some v

/-- The token is neither a label nor a literal. -/
def HasNoValue (labels : Labels) (t : Token) : Prop := lookupToken t labels = none ∧ literalValue t = none

/-- The token is `<lit>(<reg>)`, with the literal's value and the register's index. -/
def IsMemoryToken (t : Token) (off : Word) (base : Reg) : Prop :=
  ∃ lit, literalValue lit = some off ∧ t = lit ++ '(' :: (registerName base ++ [')'])

/-- Form `RRR` of a mnemonic: what it decodes to, and its `OperandCount` and `BadRegister` faults. -/
def FormRRR (m : String) (mk : Reg → Reg → Reg → Instr) : Prop :=
  (∀ L ops, ops.length ≠ 3 → decodeTokens L m.toList ops = .fault .operandCount) ∧
  (∀ L a b c x y z, NamesReg a x → NamesReg b y → NamesReg c z → decodeTokens L m.toList [a, b, c] = .op (mk x y z)) ∧
  (∀ L a b c, NamesNoReg a ∨ NamesNoReg b ∨ NamesNoReg c → decodeTokens L m.toList [a, b, c] = .fault .badRegister)

/-- Forms `RRV`, `RRS`, `RRT` of a mnemonic, and its `OperandCount`, `BadRegister` and `BadValue` faults. -/
def FormRRV (m : String) (mk : Reg → Reg → Word → Instr) : Prop :=
  (∀ L ops, ops.length ≠ 3 → decodeTokens L m.toList ops = .fault .operandCount) ∧
  (∀ L a b c x y v, NamesReg a x → NamesReg b y → HasValue L c v → decodeTokens L m.toList [a, b, c] = .op (mk x y v)) ∧
  (∀ L a b c, NamesNoReg a ∨ NamesNoReg b → decodeTokens L m.toList [a, b, c] = .fault .badRegister) ∧
  (∀ L a b c x y, NamesReg a x → NamesReg b y → HasNoValue L c → decodeTokens L m.toList [a, b, c] = .fault .badValue)

/-- Form `RV` of a mnemonic, and its faults. -/
def FormRV (m : String) (mk : Reg → Word → Instr) : Prop :=
  (∀ L ops, ops.length ≠ 2 → decodeTokens L m.toList ops = .fault .operandCount) ∧
  (∀ L a b x v, NamesReg a x → HasValue L b v → decodeTokens L m.toList [a, b] = .op (mk x v)) ∧
  (∀ L a b, NamesNoReg a → decodeTokens L m.toList [a, b] = .fault .badRegister) ∧
  (∀ L a b x, NamesReg a x → HasNoValue L b → decodeTokens L m.toList [a, b] = .fault .badValue)

/-- Form `RR` of a mnemonic, and its faults. -/
def FormRR (m : String) (mk : Reg → Reg → Instr) : Prop :=
  (∀ L ops, ops.length ≠ 2 → decodeTokens L m.toList ops = .fault .operandCount) ∧
  (∀ L a b x y, NamesReg a x → NamesReg b y → decodeTokens L m.toList [a, b] = .op (mk x y)) ∧
  (∀ L a b, NamesNoReg a ∨ NamesNoReg b → decodeTokens L m.toList [a, b] = .fault .badRegister)

/-- Form `RM` of a mnemonic, and its faults. -/
def FormRM (m : String) (mk : Reg → Word → Reg → Instr) : Prop :=
  (∀ L ops, ops.length ≠ 2 → decodeTokens L m.toList ops = .fault .operandCount) ∧
  (∀ L a b x off base, NamesReg a x → IsMemoryToken b off base → decodeTokens L m.toList [a, b] = .op (mk x off base)) ∧
  (∀ L a b, NamesNoReg a → decodeTokens L m.toList [a, b] = .fault .badRegister) ∧
  (∀ L a b x, NamesReg a x → (∀ off base, ¬ IsMemoryToken b off base) →
    decodeTokens L m.toList [a, b] = .fault .badMemOperand)

/-- Form `T` of a mnemonic, and its faults. -/
def FormT (m : String) (mk : Word → Instr) : Prop :=
  (∀ L ops, ops.length ≠ 1 → decodeTokens L m.toList ops = .fault .operandCount) ∧
  (∀ L a v, HasValue L a v → decodeTokens L m.toList [a] = .op (mk v)) ∧
  (∀ L a, HasNoValue L a → decodeTokens L m.toList [a] = .fault .badValue)

/-- Form `R` of a mnemonic, and its faults. -/
def FormR (m : String) (mk : Reg → Instr) : Prop :=
  (∀ L ops, ops.length ≠ 1 → decodeTokens L m.toList ops = .fault .operandCount) ∧
  (∀ L a x, NamesReg a x → decodeTokens L m.toList [a] = .op (mk x)) ∧
  (∀ L a, NamesNoReg a → decodeTokens L m.toList [a] = .fault .badRegister)

/-- Form `N` of a mnemonic, and its fault. -/
def FormN (m : String) (i : Instr) : Prop :=
  (∀ L ops, ops.length ≠ 0 → decodeTokens L m.toList ops = .fault .operandCount) ∧
  (∀ L, decodeTokens L m.toList [] = .op i)

/-- A three-register instruction: its form, and its result `f(x[rs], x[rt])` with its frame. -/
def RegisterRule (m : String) (mk : Reg → Reg → Reg → Instr) (f : Word → Word → Word) : Prop :=
  FormRRR m mk ∧ ∀ rd rs rt s, CompletesWriting (mk rd rs rt) s rd (f (s.reg rs) (s.reg rt))

/-- A register-immediate instruction: its form, and its result `f(x[rs], v)` with its frame. -/
def ImmediateRule (m : String) (mk : Reg → Reg → Word → Instr) (f : Word → Word → Word) : Prop :=
  FormRRV m mk ∧ ∀ rd rs v s, CompletesWriting (mk rd rs v) s rd (f (s.reg rs) v)

/-- The 28 table mnemonics in the order of 00_scope.md R2, each with its number of operand tokens (30_encoding.md
R83). -/
def countTable : List (String × Nat) :=
  [("add", 3), ("addu", 3), ("sub", 3), ("subu", 3), ("addi", 3), ("addiu", 3), ("mul", 3)] ++
  [("and", 3), ("or", 3), ("xor", 3), ("sll", 3), ("srl", 3), ("slt", 3), ("slti", 3)] ++
  [("lui", 2), ("li", 2), ("la", 2), ("move", 2), ("lw", 2), ("sw", 2), ("lb", 2), ("sb", 2)] ++
  [("beq", 3), ("bne", 3), ("j", 1), ("jal", 1), ("jr", 1), ("syscall", 0)]

/-- The mnemonic is one of the 28. -/
def InTable (m : Token) : Prop := ∃ p ∈ countTable, p.1.toList = m

/-! ## Independent readings of the spec's functions -/

/-- Base-10 value of digits written most significant first. -/
def digitsValue (ds : List Nat) : Nat := Nat.ofDigits 10 ds.reverse

/-- The bytes of the signed decimal string of `n` (44_system.md R181). -/
def decimalBytes (n : Int) : List Byte :=
  (if n < 0 then [45] else []) ++
    (if n = 0 then [48] else (Nat.digits 10 n.natAbs).reverse.map fun d => BitVec.ofNat 8 (48 + d))

/-- The bytes from `a` before the first zero byte, among the first 1000 (44_system.md R182). -/
def stringBytes (m : Memory) (a : Word) : List Byte :=
  ((List.range 1000).map fun k => readByte m (a + BitVec.ofNat 32 k)).takeWhile (· ≠ 0)

/-- Byte `k` (0 the most significant) of a word, as `floor(v / 2^(24-8k)) mod 256`. -/
def bigEndianByte (v : Word) (k : Nat) : Byte := BitVec.ofNat 8 (v.toNat / 2 ^ (24 - 8 * k))

/-- The byte a word store at `ea` leaves at `a`, where it stores one (20_memory.md R55). -/
def wordAt (ea v a : Word) : Option Byte :=
  if a = ea then some (bigEndianByte v 0)
  else if a = wrap32 (ea.toNat + 1) then some (bigEndianByte v 1)
  else if a = wrap32 (ea.toNat + 2) then some (bigEndianByte v 2)
  else if a = wrap32 (ea.toNat + 3) then some (bigEndianByte v 3)
  else none

/-- The byte a data image installs at `a`: the last one written there, else 0. -/
def imageByte (image : List (Word × Byte)) (a : Word) : Byte :=
  (((image.filter fun c => c.1 = a).getLast?).map Prod.snd).getD 0

/-- What one place of a quoted string writes and the byte it stands for: a character other than a quote and a backslash, or
one of the two escapes (30_encoding.md R77). -/
def StringPiece (p : Text × Byte) : Prop :=
  (∃ c : Char, c ≠ Char.ofNat 34 ∧ c ≠ '\\' ∧ p = ([c], BitVec.ofNat 8 c.toNat)) ∨
  p = (['\\', 'n'], 10) ∨ p = (['\\', 't'], 9)

/-- The quoted string that writes the pieces. -/
def quotedString (pieces : List (Text × Byte)) : Text :=
  Char.ofNat 34 :: (pieces.flatMap Prod.fst ++ [Char.ofNat 34])

/-- The instruction that a running machine is about to execute. -/
def AboutToRun (s : State) (i : Instr) : Prop :=
  s.status = .running ∧ ∃ I, fetch s.program s.pc = some I ∧ decode I s.program.labels = .op i

/-- The register an instruction writes, where it writes one (10_state.md R24, R37). -/
def destination (i : Instr) : Option Reg :=
  match i with
  | .add rd _ _ | .addu rd _ _ | .sub rd _ _ | .subu rd _ _ | .addi rd _ _ | .addiu rd _ _ | .mul rd _ _
  | .and rd _ _ | .or rd _ _ | .xor rd _ _ | .sll rd _ _ | .srl rd _ _ | .slt rd _ _ | .slti rd _ _
  | .lui rd _ | .li rd _ | .la rd _ | .move rd _ | .lw rd _ _ | .lb rd _ _ => some rd
  | .jal _ => some 31
  | .sw _ _ _ | .sb _ _ _ | .beq _ _ _ | .bne _ _ _ | .j _ | .jr _ | .syscall | .other _ _ => none

/-- The pc after an instruction (10_state.md R26; 43_control.md R171 to R175). -/
def pcAfter (i : Instr) (s : State) : Word :=
  match i with
  | .beq rs rt target => if s.reg rs = s.reg rt then target else wrap32 (s.pc.toNat + 4)
  | .bne rs rt target => if s.reg rs = s.reg rt then wrap32 (s.pc.toNat + 4) else target
  | .j target => target
  | .jal target => target
  | .jr rs => s.reg rs
  | .add _ _ _ | .addu _ _ _ | .sub _ _ _ | .subu _ _ _ | .addi _ _ _ | .addiu _ _ _ | .mul _ _ _ | .and _ _ _
  | .or _ _ _ | .xor _ _ _ | .sll _ _ _ | .srl _ _ _ | .slt _ _ _ | .slti _ _ _ | .lui _ _ | .li _ _ | .la _ _
  | .move _ _ | .lw _ _ _ | .sw _ _ _ | .lb _ _ _ | .sb _ _ _ | .syscall | .other _ _ => wrap32 (s.pc.toNat + 4)

/-- The address `a` is one that the instruction stores to. -/
def StoresTo (i : Instr) (s : State) (a : Word) : Prop :=
  match i with
  | .sw _ off base => ∃ k < 4, a = effectiveAddress s off base + BitVec.ofNat 32 k
  | .sb _ off base => a = effectiveAddress s off base
  | .add _ _ _ | .addu _ _ _ | .sub _ _ _ | .subu _ _ _ | .addi _ _ _ | .addiu _ _ _ | .mul _ _ _ | .and _ _ _
  | .or _ _ _ | .xor _ _ _ | .sll _ _ _ | .srl _ _ _ | .slt _ _ _ | .slti _ _ _ | .lui _ _ | .li _ _ | .la _ _
  | .move _ _ | .lw _ _ _ | .lb _ _ _ | .beq _ _ _ | .bne _ _ _ | .j _ | .jal _ | .jr _ | .syscall
  | .other _ _ => False

end Sys2Proof.Claims

open Sys2Proof Sys2Proof.Machine Sys2Proof.Claims

/-! ## Decoding -/

/-- Decoding what the encoder writes gives the instruction back, with every operand at every value, where no label is
named like a decimal literal (30_encoding.md sections 3 and 4). -/
def Obligations.DecodeOfEncodeIsTheInstruction : Prop :=
  ∀ (i : Instr) (L : Labels) (address : Word) (line : Nat),
    i.wf = true → (∀ p ∈ L, literalValue p.1 = none) → decode (encode i address line) L = .op i

/-- The written source line of an instruction splits into its tokens and decodes to it (30_encoding.md sections 2 and 4). -/
def Obligations.SourceLineDecodesToTheInstruction : Prop :=
  ∀ (i : Instr) (L : Labels), i.wf = true → (∀ p ∈ L, literalValue p.1 = none) →
    decodeLine L (encodeLine i) = some (.op i)

/-- Records written out from the spec's text decode to the instructions they stand for, one of every operand form. -/
def Obligations.HandWrittenRecordsDecode : Prop :=
  decodeTokens [] "add".toList ["$t0".toList, "$t1".toList, "$t2".toList] = .op (.add 8 9 10) ∧
  decodeTokens [] "addi".toList ["$s7".toList, "$fp".toList, "-1".toList] = .op (.addi 23 30 0xFFFFFFFF) ∧
  decodeTokens [] "sll".toList ["$t2".toList, "$t1".toList, "31".toList] = .op (.sll 10 9 31) ∧
  decodeTokens [("msg".toList, 0x10010000)] "la".toList ["$a0".toList, "msg".toList] = .op (.la 4 0x10010000) ∧
  decodeTokens [] "move".toList ["$zero".toList, "$k1".toList] = .op (.move 0 27) ∧
  decodeTokens [] "lw".toList ["$t6".toList, "-4($sp)".toList] = .op (.lw 14 0xFFFFFFFC 29) ∧
  decodeTokens [("L".toList, 0x00400040)] "bne".toList ["$at".toList, "$v1".toList, "L".toList] =
    .op (.bne 1 3 0x00400040) ∧
  decodeTokens [] "jal".toList ["4194304".toList] = .op (.jal 0x00400000) ∧
  decodeTokens [] "jr".toList ["$ra".toList] = .op (.jr 31) ∧
  decodeTokens [] "syscall".toList [] = .op .syscall ∧
  decodeTokens [] "ori".toList ["$t2".toList, "$t2".toList, "7".toList] =
    .op (.other "ori".toList ["$t2".toList, "$t2".toList, "7".toList])

/-- The 32 register names, index by index, and `reg(k)`: a name gives its index, any other token is `BadRegister`
(30_encoding.md section 3; the names are the spec's decisions D2 and D3, assumption 5). -/
def Obligations.RegisterTokensAreTheThirtyTwoNames : Prop :=
  (List.finRange 32).map registerName =
    (["$zero", "$at", "$v0", "$v1", "$a0", "$a1", "$a2", "$a3", "$t0", "$t1", "$t2", "$t3", "$t4", "$t5", "$t6", "$t7"] ++
     ["$s0", "$s1", "$s2", "$s3", "$s4", "$s5", "$s6", "$s7", "$t8", "$t9", "$k0", "$k1", "$gp", "$sp", "$fp", "$ra"]).map
      String.toList ∧
  (∀ t r, resolveReg t = .ok r ↔ NamesReg t r) ∧ (∀ t, NamesNoReg t → resolveReg t = .error .badRegister)

/-- `val(k)`: a label first, then a decimal literal, else `BadValue` (30_encoding.md R86). -/
def Obligations.ValueTokensResolveLabelFirst : Prop :=
  ∀ (L : Labels) (t : Token),
    (∀ w, lookupToken t L = some w → resolveVal L t = .ok w) ∧
    (∀ w, t ∉ L.map Prod.fst → literalValue t = some w → resolveVal L t = .ok w) ∧
    (t ∉ L.map Prod.fst → literalValue t = none → resolveVal L t = .error .badValue)

/-- The decimal literals: an optional `-`, one or more ASCII digits, in range; the value is `wrap32(n)`; nothing else is
a literal (30_encoding.md section 3, the spec's decision D5). -/
def Obligations.DecimalLiteralGrammar : Prop :=
  ∀ (t : Token) (w : Word), literalValue t = some w ↔
    ∃ (neg : Bool) (ds : List Nat) (n : Int), ds ≠ [] ∧ (∀ d ∈ ds, d < 10) ∧
      t = (if neg then "-".toList else []) ++ ds.map (fun d => Char.ofNat (48 + d)) ∧
      n = (if neg then -(digitsValue ds : Int) else digitsValue ds) ∧ -2 ^ 31 ≤ n ∧ n ≤ 2 ^ 32 - 1 ∧ w = wrap32 n

/-- `mem(k)`: `<lit>(<reg>)` gives its offset and base, every other token is `BadMemOperand`
(30_encoding.md section 3, the spec's decision D8). -/
def Obligations.MemoryTokensResolve : Prop :=
  (∀ t off base, resolveMem t = .ok (off, base) ↔ IsMemoryToken t off base) ∧
  (∀ t, (∀ off base, ¬ IsMemoryToken t off base) → resolveMem t = .error .badMemOperand)

/-- The operand count of a table mnemonic is checked before any operand is resolved (30_encoding.md section 3, the
spec's decision D6). -/
def Obligations.OperandCountIsCheckedFirst : Prop :=
  ∀ p ∈ countTable, ∀ (L : Labels) (ops : List Token), ops.length ≠ p.2 →
    decodeTokens L p.1.toList ops = .fault .operandCount

/-- The first failing operand, left to right, is the fault reported: a bad register before a bad value or a bad memory
operand (30_encoding.md section 3, the spec's decision D21). -/
def Obligations.FirstFailingOperandIsReported : Prop :=
  ∀ (L : Labels) (a b c : Token),
    (∀ m ∈ ["addi", "addiu", "slti", "sll", "srl", "beq", "bne"],
      NamesNoReg a ∨ NamesNoReg b → decodeTokens L m.toList [a, b, c] = .fault .badRegister) ∧
    (∀ m ∈ ["addi", "addiu", "slti", "sll", "srl", "beq", "bne"], ∀ x y, NamesReg a x → NamesReg b y →
      HasNoValue L c → decodeTokens L m.toList [a, b, c] = .fault .badValue) ∧
    (∀ m ∈ ["lui", "li", "la", "lw", "sw", "lb", "sb"],
      NamesNoReg a → decodeTokens L m.toList [a, b] = .fault .badRegister) ∧
    (∀ m ∈ ["lui", "li", "la"], ∀ x, NamesReg a x → HasNoValue L b →
      decodeTokens L m.toList [a, b] = .fault .badValue) ∧
    (∀ m ∈ ["lw", "sw", "lb", "sb"], ∀ x, NamesReg a x → (∀ off base, ¬ IsMemoryToken b off base) →
      decodeTokens L m.toList [a, b] = .fault .badMemOperand)

/-- An unrecognised mnemonic only advances the pc, whatever its operand tokens are (44_system.md section 3; that
case variants are left out is the spec's decision D4, that operands are not examined its decision D31). -/
def Obligations.UnrecognisedMnemonicOnlyAdvances : Prop :=
  (∀ (m : Token) (ops : List Token) (s : State), CompletesGoingTo (.other m ops) s (wrap32 (s.pc.toNat + 4))) ∧
  (∀ (L : Labels) (m : Token) (ops : List Token), ¬ InTable m → ¬ InTable (asciiLower m) →
    decodeTokens L m ops = .op (.other m ops))

/-- A mnemonic that is a table mnemonic only after ASCII case folding is refused (30_encoding.md section 4, the
spec's decision D4; assumption 22). -/
def Obligations.CaseVariantMnemonicIsRefused : Prop :=
  ∀ (I : Record) (s : State), s.status = .running → fetch s.program s.pc = some I → ¬ InTable I.mnemonic →
    InTable (asciiLower I.mnemonic) → step s = .refused .caseVariantMnemonic

/-! ## The step -/

/-- When the record at the pc decodes to `i`, the step is `exec i`, with nothing added around it (10_state.md section 5a). -/
def Obligations.StepRunsTheDecodedInstruction : Prop :=
  ∀ (s : State) (I : Record) (i : Instr), s.status = .running → fetch s.program s.pc = some I →
    decode I s.program.labels = .op i → step s = exec i s

/-- A stopped machine does not change; a running one whose pc is no instruction's address ends, with nothing else
changed (10_state.md section 5a, the spec's decision D14). -/
def Obligations.StepOfStoppedAndOfMissingInstruction : Prop :=
  (∀ s : State, s.status ≠ .running → step s = .next s) ∧
  (∀ s : State, s.status = .running → (∀ I ∈ s.program.instrs, I.address ≠ s.pc) →
    step s = .next { s with status := .ended })

/-- Fetch selects the unique instruction whose address equals the pc (30_encoding.md R73). -/
def Obligations.FetchSelectsTheUniqueInstruction : Prop :=
  ∀ (P : Program) (pc : Word), P.wf = true →
    (∀ I, fetch P pc = some I ↔ I ∈ P.instrs ∧ I.address = pc) ∧
    (∀ I ∈ P.instrs, ∀ J ∈ P.instrs, I.address = pc → J.address = pc → I = J)

/-- A runtime fault commits nothing of the instruction: status alone becomes `Faulted(pc, message)` for some message, and
the pc stays (60_exceptions.md section 2). That the counter `draws` advances by one is the model's own choice (DESIGN CHOICE,
assumption 4). -/
def Obligations.RuntimeFaultCommitsNothing : Prop :=
  ∀ (s : State) (I : Record) (k : FaultKind), s.status = .running → fetch s.program s.pc = some I →
    decode I s.program.labels = .fault k →
    ∃ msg, step s = .next { s with status := .faulted s.pc msg, draws := s.draws + 1 }

/-- In `Faulted` status a step changes nothing and a failed assemble leaves the state as it is; reset and a successful
assemble leave the status (60_exceptions.md R204). -/
def Obligations.FaultedUntilResetOrLoad : Prop :=
  ∀ (s : State) (fpc : Word), FaultedAt s fpc →
    (∀ k, RunsTo k s s) ∧ (∀ src e t, assembleOp src s = .failed e t → t = s) ∧ (resetOp s).status = .running ∧
    (∀ src P, assemble src = .ok P → P.wf = true → ∃ t, assembleOp src s = .installed t ∧ t.status = .running)

/-- The status transitions: a step leaves `Running` by syscall service 10 (to `Exited`), a fetch miss (to `Ended`) or a
runtime fault (to `Faulted`), and by nothing else; a stopped machine does not change; reset and a successful assemble give
`Running`, a failed one keeps the status (10_state.md R29). The service code's register is the parameter V0_INDEX. -/
def Obligations.StatusTransitions : Prop :=
  (∀ s t : State, step s = .next t → t.status ≠ s.status →
    s.status = .running ∧
      (t.status = .exited ∧ AboutToRun s .syscall ∧ s.reg Config.v0 = 10 ∨
       t.status = .ended ∧ (∀ I ∈ s.program.instrs, I.address ≠ s.pc) ∨
       FaultedAt t s.pc ∧ ∃ I k, fetch s.program s.pc = some I ∧ decode I s.program.labels = .fault k)) ∧
  (∀ s : State, s.status ≠ .running → step s = .next s) ∧
  (∀ s : State, AboutToRun s .syscall → s.reg Config.v0 = 10 → ∃ t, step s = .next t ∧ t.status = .exited) ∧
  (∀ s : State, s.status = .running → (∀ I ∈ s.program.instrs, I.address ≠ s.pc) →
    ∃ t, step s = .next t ∧ t.status = .ended) ∧
  (∀ (s : State) (I : Record) (k : FaultKind), s.status = .running → fetch s.program s.pc = some I →
    decode I s.program.labels = .fault k → ∃ t, step s = .next t ∧ FaultedAt t s.pc) ∧
  (∀ s : State, (resetOp s).status = .running) ∧
  (∀ src s t, assembleOp src s = .installed t → t.status = .running) ∧
  (∀ src s e t, assembleOp src s = .failed e t → t.status = s.status)

/-- A step refuses only a case-variant mnemonic and a shift amount above 31, and never stops with a fault
(60_exceptions.md section 2, the spec's decisions D4 and D9). -/
def Obligations.StepRefusesOnlyWhatTheSpecRefuses : Prop :=
  (∀ s f, step s ≠ .fault f) ∧
  ∀ s r, step s = .refused r → s.status = .running ∧ ∃ I, fetch s.program s.pc = some I ∧
    (r = .caseVariantMnemonic ∧ ¬ InTable I.mnemonic ∧ InTable (asciiLower I.mnemonic) ∨
     r = .shiftOutOfRange ∧ ∃ rd rs sh, 31 < sh.toNat ∧
       (decode I s.program.labels = .op (.sll rd rs sh) ∨ decode I s.program.labels = .op (.srl rd rs sh)))

/-- The invariant: memory in canonical form, the storage of register 0 at 0, the Program well-formed. Every step keeps
it. -/
def Obligations.StepKeepsTheInvariant : Prop := ∀ s t : State, StateInv s → step s = .next t → StateInv t

/-- The invariant holds at reset, and after the load of every well-formed Program. -/
def Obligations.ResetAndLoadMeetTheInvariant : Prop :=
  StateInv State.reset ∧ ∀ (s : State) (P : Program), P.wf = true → ∃ t, loadProgram P s = .installed t ∧ StateInv t

/-- The loaded Program is replaced by a successful assemble and by nothing else (10_state.md R35). -/
def Obligations.ProgramIsImmutable : Prop :=
  (∀ s t, step s = .next t → t.program = s.program) ∧ (∀ s, (resetOp s).program = s.program) ∧
  (∀ src s e t, assembleOp src s = .failed e t → t.program = s.program) ∧
  (∀ src s t, assembleOp src s = .installed t → assemble src = .ok t.program)

/-- The output only grows, and only by syscall services 1, 4 and 11; reset empties it (10_state.md section 4; that Out holds
bytes is the spec's decision D17). -/
def Obligations.OutputOnlyGrows : Prop :=
  (∀ s t, step s = .next t → ∃ bytes, t.out = s.out ++ bytes ∧
    (bytes ≠ [] → AboutToRun s .syscall ∧ (s.reg 2 = 1 ∨ s.reg 2 = 4 ∨ s.reg 2 = 11))) ∧
  (∀ s, (resetOp s).out = [])

/-- Memory changes only at the bytes a store instruction stores to (20_memory.md section 3, 42_load_store.md). -/
def Obligations.MemoryChangesOnlyWhereStored : Prop :=
  ∀ (s t : State) (a : Word), step s = .next t → readByte t.mem a ≠ readByte s.mem a →
    ∃ i, AboutToRun s i ∧ StoresTo i s a

/-- No instruction writes more than its one destination register, and register 0 always reads 0 (10_state.md sections 2 and 6). -/
def Obligations.OnlyTheDestinationRegisterChanges : Prop :=
  ∀ (i : Instr) (s t : State), exec i s = .next t →
    t.reg 0 = 0 ∧ ∀ r, destination i ≠ some r → t.reg r = s.reg r

/-- The pc after every instruction: `wrap32(pc + 4)` but for a taken branch and a jump (10_state.md section 3; that the pc
wraps is derived by the spec). -/
def Obligations.PcAfterEveryInstruction : Prop :=
  ∀ (i : Instr) (s t : State), exec i s = .next t → t.pc = pcAfter i s

/-- Register 0 reads 0, and every write to it, by whichever instruction, is discarded; a write to another register is
read back (10_state.md R22). -/
def Obligations.RegisterZeroIsHardwired : Prop :=
  (∀ s : State, s.reg 0 = 0) ∧ (∀ (s : State) (v : Word), s.setReg 0 v = s) ∧
  (∀ (s : State) (r r' : Reg) (v : Word), (s.setReg r v).reg r' = if r' = r ∧ r ≠ 0 then v else s.reg r') ∧
  (∀ (i : Instr) (s t : State), exec i s = .next t → destination i = some 0 → ∀ r, t.reg r = s.reg r)

/-! ## Arithmetic and logic -/

/-- `add` and `addu`: `wrap32(a + b)`, no overflow fault (40_arithmetic_logic.md R122, R123). -/
def Obligations.AddAndAdduWriteTheWrappedSum : Prop :=
  RegisterRule "add" .add (fun a b => wrap32 (a.toNat + b.toNat)) ∧
  RegisterRule "addu" .addu (fun a b => wrap32 (a.toNat + b.toNat))

/-- `sub` and `subu`: `wrap32(a - b)` (40_arithmetic_logic.md R124, R125). -/
def Obligations.SubAndSubuWriteTheWrappedDifference : Prop :=
  RegisterRule "sub" .sub (fun a b => wrap32 (a.toNat - b.toNat)) ∧
  RegisterRule "subu" .subu (fun a b => wrap32 (a.toNat - b.toNat))

/-- `addi` and `addiu`: `wrap32(a + v)` with a full 32-bit value (40_arithmetic_logic.md section 3; the width
is the spec's decision D5). -/
def Obligations.AddiAndAddiuWriteTheWrappedSum : Prop :=
  ImmediateRule "addi" .addi (fun a v => wrap32 (a.toNat + v.toNat)) ∧
  ImmediateRule "addiu" .addiu (fun a v => wrap32 (a.toNat + v.toNat))

/-- `mul`: the low 32 bits of the signed product (40_arithmetic_logic.md R128). -/
def Obligations.MulWritesTheLowProduct : Prop :=
  RegisterRule "mul" .mul (fun a b => wrap32 (a.toInt * b.toInt))

/-- `and`, `or`, `xor`, bit by bit (40_arithmetic_logic.md R129, R130, R131). -/
def Obligations.LogicWorksBitByBit : Prop :=
  RegisterRule "and" .and (fun a b => BitVec.ofFnLE fun k : Fin 32 => a.getLsbD k && b.getLsbD k) ∧
  RegisterRule "or" .or (fun a b => BitVec.ofFnLE fun k : Fin 32 => a.getLsbD k || b.getLsbD k) ∧
  RegisterRule "xor" .xor (fun a b => BitVec.ofFnLE fun k : Fin 32 => a.getLsbD k != b.getLsbD k)

/-- `sll` and `srl` by 0 to 31: `wrap32(a * 2^sh)` and `floor(a / 2^sh)`; above 31 they are refused
(40_arithmetic_logic.md section 6; the refusal is the spec's decision D9). -/
def Obligations.ShiftsInRangeAndRefusedAbove : Prop :=
  FormRRV "sll" .sll ∧ FormRRV "srl" .srl ∧
  (∀ rd rs sh s, sh.toNat ≤ 31 → CompletesWriting (.sll rd rs sh) s rd (wrap32 ((s.reg rs).toNat * 2 ^ sh.toNat))) ∧
  (∀ rd rs sh s, sh.toNat ≤ 31 → CompletesWriting (.srl rd rs sh) s rd (wrap32 ((s.reg rs).toNat / 2 ^ sh.toNat))) ∧
  (∀ rd rs sh s, 31 < sh.toNat → exec (.sll rd rs sh) s = .refused .shiftOutOfRange) ∧
  (∀ rd rs sh s, 31 < sh.toNat → exec (.srl rd rs sh) s = .refused .shiftOutOfRange)

/-- `slt` and `slti`: the signed comparison (40_arithmetic_logic.md R134, R135). -/
def Obligations.SetLessThanIsSigned : Prop :=
  RegisterRule "slt" .slt (fun a b => if a.toInt < b.toInt then 1 else 0) ∧
  ImmediateRule "slti" .slti (fun a v => if a.toInt < v.toInt then 1 else 0)

/-- `lui`: `wrap32(v * 2^16)` (40_arithmetic_logic.md section 8; the truncation is derived by the spec). -/
def Obligations.LuiShiftsSixteenLeft : Prop :=
  FormRV "lui" .lui ∧ ∀ rd v s, CompletesWriting (.lui rd v) s rd (wrap32 (v.toNat * 2 ^ 16))

/-! ## Moves -/

/-- `la` and `move` (41_pseudo_moves.md R151, R152), and `li`, which does as `la` does (derived by the spec from the
resolution of values). -/
def Obligations.MovesWriteTheirOperand : Prop :=
  FormRV "li" .li ∧ FormRV "la" .la ∧ FormRR "move" .move ∧
  (∀ rd v s, CompletesWriting (.li rd v) s rd v) ∧
  (∀ rd v s, CompletesWriting (.la rd v) s rd v) ∧
  (∀ rd rs s, CompletesWriting (.move rd rs) s rd (s.reg rs))

/-! ## Loads and stores -/

/-- The effective address is `wrap32(x[base] + off)`, and `lw` and `lb` load the big-endian word and the sign-extended
byte there (42_load_store.md R160, R161, R163). -/
def Obligations.LoadsReadTheEffectiveAddress : Prop :=
  FormRM "lw" .lw ∧ FormRM "lb" .lb ∧
  (∀ s off base, effectiveAddress s off base = wrap32 ((s.reg base).toNat + off.toInt)) ∧
  (∀ rt off base s, CompletesWriting (.lw rt off base) s rt
    (let ea := effectiveAddress s off base
     wrap32 ((readByte s.mem ea).toNat * 2 ^ 24 + (readByte s.mem (wrap32 (ea.toNat + 1))).toNat * 2 ^ 16 +
       (readByte s.mem (wrap32 (ea.toNat + 2))).toNat * 2 ^ 8 + (readByte s.mem (wrap32 (ea.toNat + 3))).toNat))) ∧
  (∀ rt off base s, CompletesWriting (.lb rt off base) s rt
    (wrap32 (readByte s.mem (effectiveAddress s off base)).toInt))

/-- `sw` stores the four bytes of the word, most significant first, at the effective address, and nothing else changes
(42_load_store.md R162). -/
def Obligations.SwStoresTheWordBigEndian : Prop :=
  FormRM "sw" .sw ∧
  ∀ rt off base s, CompletesStoring (.sw rt off base) s (wordAt (effectiveAddress s off base) (s.reg rt))

/-- `sb` stores the low byte at the effective address, and nothing else changes (42_load_store.md R164). -/
def Obligations.SbStoresTheLowByte : Prop :=
  FormRM "sb" .sb ∧
  ∀ rt off base s, CompletesStoring (.sb rt off base) s
    (fun a => if a = effectiveAddress s off base then some (BitVec.ofNat 8 (s.reg rt).toNat) else none)

/-- A word reads back as written, its bytes are its big-endian decomposition, every other byte is unchanged
(20_memory.md R57). -/
def Obligations.WordAndByteViewsAgree : Prop :=
  ∀ (m : Memory) (a v : Word),
    readWord (writeWord m a v) a = v ∧
    (∀ k : Nat, k < 4 → readByte (writeWord m a v) (wrap32 (a.toNat + k)) = bigEndianByte v k) ∧
    (∀ b, wordAt a v b = none → readByte (writeWord m a v) b = readByte m b) ∧
    (∀ b w, readByte (writeByte m a b) w = if w = a then b else readByte m w)

/-! ## Control transfer -/

/-- `beq` and `bne`: the absolute target where the registers are equal (unequal), else the next instruction; the
target is resolved whether or not the branch is taken (43_control.md, the spec's decision D11). -/
def Obligations.BranchesCompareAllBits : Prop :=
  FormRRV "beq" .beq ∧ FormRRV "bne" .bne ∧
  (∀ rs rt target s, CompletesGoingTo (.beq rs rt target) s
    (if s.reg rs = s.reg rt then target else wrap32 (s.pc.toNat + 4))) ∧
  (∀ rs rt target s, CompletesGoingTo (.bne rs rt target) s
    (if s.reg rs = s.reg rt then wrap32 (s.pc.toNat + 4) else target))

/-- `j`, `jal` and `jr`: absolute targets; `jal` links `wrap32(pc + 4)` in register 31 (43_control.md R173; that
the link register is 31 is the spec's decision D2, that `jr` goes to any value its decision D29; assumption 5). -/
def Obligations.JumpsGoToTheirTarget : Prop :=
  FormT "j" .j ∧ FormT "jal" .jal ∧ FormR "jr" .jr ∧
  (∀ target s, CompletesGoingTo (.j target) s target) ∧
  (∀ rs s, CompletesGoingTo (.jr rs) s (s.reg rs)) ∧
  (∀ target s, ∃ t, exec (.jal target) s = .next t ∧ t.pc = target ∧
    (∀ r, t.reg r = if r = 31 then wrap32 (s.pc.toNat + 4) else s.reg r) ∧ SameElsewhere s t)

/-! ## syscall -/

/-- `syscall` takes no operand, writes no register and no memory, and advances the pc for every service (44_system.md
section 1, the spec's decisions D2, D6 and D15). -/
def Obligations.SyscallAdvancesForEveryService : Prop :=
  FormN "syscall" .syscall ∧
  ∀ s, ∃ t, exec .syscall s = .next t ∧ t.pc = wrap32 (s.pc.toNat + 4) ∧ (∀ r, t.reg r = s.reg r) ∧
    (∀ a, readByte t.mem a = readByte s.mem a) ∧ t.program = s.program

/-- Service 1 appends the signed decimal string of `$a0` and nothing else happens but the pc's advance (44_system.md
section 1; the format is the spec's decision D18). -/
def Obligations.PrintIntAppendsTheSignedDecimal : Prop :=
  ∀ s : State, s.reg 2 = 1 →
    exec .syscall s = .next { s with out := s.out ++ decimalBytes (s.reg 4).toInt, pc := wrap32 (s.pc.toNat + 4) }

/-- Service 4 appends the bytes at `$a0` before the first zero byte, at most 1000 (44_system.md section 1; that the cap
counts examined bytes is the spec's decision D16). -/
def Obligations.PrintStringAppendsUpToZeroOrCap : Prop :=
  ∀ s : State, s.reg 2 = 4 →
    exec .syscall s = .next { s with out := s.out ++ stringBytes s.mem (s.reg 4), pc := wrap32 (s.pc.toNat + 4) }

/-- Service 10 sets the status `Exited`, the pc advances, and every later step changes nothing (44_system.md section 1;
that the pc advances is the spec's decision D15). -/
def Obligations.ExitStopsTheMachine : Prop :=
  ∀ s : State, s.reg 2 = 10 → ∃ t, t = { s with status := .exited, pc := wrap32 (s.pc.toNat + 4) } ∧
    exec .syscall s = .next t ∧ ∀ k, RunsTo k t t

/-- Service 11 appends the low byte of `$a0`; any other code than 1, 4, 10 and 11 only advances the pc (44_system.md R184,
R185). The registers of the code and of the argument are the parameters V0_INDEX and A0_INDEX. -/
def Obligations.PrintCharAndOtherServices : Prop :=
  (∀ s : State, s.reg Config.v0 = 11 →
    exec .syscall s =
      .next { s with out := s.out ++ [BitVec.ofNat 8 (s.reg Config.a0).toNat], pc := wrap32 (s.pc.toNat + 4) }) ∧
  (∀ s : State, s.reg Config.v0 ≠ 1 → s.reg Config.v0 ≠ 4 → s.reg Config.v0 ≠ 10 → s.reg Config.v0 ≠ 11 →
    CompletesGoingTo .syscall s (wrap32 (s.pc.toNat + 4)))

/-! ## Reset and load -/

/-- The reset value of every piece of state, `$sp` at the parameter STACK_BASE (10_state.md section 7, the spec's
decisions D12 and D13; assumption 3). -/
def Obligations.ResetValues : Prop :=
  (∀ r : Reg, State.reset.reg r = if r = 29 then Config.stackBase else 0) ∧ State.reset.pc = 0x00400000 ∧
  (∀ a, readByte State.reset.mem a = 0) ∧ State.reset.out = [] ∧ State.reset.status = .running

/-- `reset()` on every state: every piece of state at its reset value, the loaded Program kept, the data image not
reinstalled (70_reset_and_hazards.md section 1, the spec's decisions D12, D13 and D22; assumption 3). -/
def Obligations.ResetKeepsOnlyTheProgram : Prop :=
  ∀ s : State,
    (∀ r : Reg, (resetOp s).reg r = if r = 29 then Config.stackBase else 0) ∧ (resetOp s).pc = 0x00400000 ∧
    (∀ a, readByte (resetOp s).mem a = 0) ∧ (resetOp s).out = [] ∧ (resetOp s).status = .running ∧
    (resetOp s).program = s.program

/-- A successful assemble resets the machine and installs the Program and its data image (70_reset_and_hazards.md
section 1, the spec's decision D12). -/
def Obligations.AssembleInstallsTheProgram : Prop :=
  ∀ (src : Text) (s : State) (P : Program), assemble src = .ok P → P.wf = true →
    ∃ t, assembleOp src s = .installed t ∧ t.program = P ∧
      (∀ r : Reg, t.reg r = if r = 29 then Config.stackBase else 0) ∧ t.pc = 0x00400000 ∧ t.out = [] ∧
      t.status = .running ∧ ∀ a, readByte t.mem a = imageByte P.data a

/-- An assemble that fails with an `AssemblerError` changes nothing: the Program and the whole machine state stay as they
were (70_reset_and_hazards.md R232). -/
def Obligations.FailedAssembleChangesNothing : Prop :=
  ∀ (src : Text) (s : State),
    (∀ e, assemble src = .error (.error e) → assembleOp src s = .failed e s) ∧
    (∀ e t, assembleOp src s = .failed e t → t = s)

/-- What the loader builds is a well-formed Program: addresses `TEXT_BASE + 4k`, tokens with no whitespace or comma,
unique labels, for every source short enough that no address wraps (30_encoding.md sections 1 and 2). -/
def Obligations.AssembledProgramIsWellFormed : Prop :=
  ∀ (src : Text) (P : Program), assemble src = .ok P → P.instrs.length ≤ 2 ^ 30 - 2 ^ 20 → P.wf = true

/-- An instruction line in `.text` becomes one record at the text pointer, which advances by 4: any mnemonic token that does
not begin with a dot, with any operand tokens, none of them validated (30_encoding.md section 2). That the text pointer wraps
at the top of the address space is the model's inference (DEDUCED, assumption 16). -/
def Obligations.TextLineRecordsOneInstruction : Prop :=
  ∀ (n : Nat) (m : Token) (ops : List Token) (st : LoaderState),
    Token.wf m = true → (∀ t ∈ ops, Token.wf t = true) → m.head? ≠ some '.' → st.sect = .text →
    contentLine n (m ++ joinOperands true ops) st =
      .ok { st with instrs := st.instrs ++ [⟨st.textPtr, m, ops, n⟩], textPtr := wrap32 (st.textPtr.toNat + 4) }

/-- A comma separates tokens as a space does (30_encoding.md sections 2 and 4). -/
def Obligations.CommasSeparateLikeSpaces : Prop :=
  ∀ line : Text, tokenise line = tokenise (line.map fun c => if c = ',' then ' ' else c)

/-- `.ascii` and `.asciiz` write one byte for every character and every escape (`\n` 10, `\t` 9) at the data pointer,
`.asciiz` one zero byte more, and advance the pointer by the number of bytes (30_encoding.md section 2). That addresses and
data pointer wrap at the top of the address space is the model's inference (DEDUCED, assumption 16). -/
def Obligations.StringDirectiveWritesItsBytes : Prop :=
  ∀ (n : Nat) (pieces : List (Text × Byte)) (st : LoaderState), st.sect = .data → (∀ p ∈ pieces, StringPiece p) →
    ∃ t u, contentLine n (".ascii ".toList ++ quotedString pieces) st = .ok t ∧
      t.data = st.data ++ pieces.mapIdx (fun k p => (st.dataPtr + BitVec.ofNat 32 k, p.2)) ∧
      t.dataPtr = st.dataPtr + BitVec.ofNat 32 pieces.length ∧
      contentLine n (".asciiz ".toList ++ quotedString pieces) st = .ok u ∧
      u.data = t.data ++ [(t.dataPtr, 0)] ∧ u.dataPtr = t.dataPtr + 1 ∧
      t.sect = .data ∧ u.sect = .data ∧ t.textPtr = st.textPtr ∧ u.textPtr = st.textPtr ∧
      t.instrs = st.instrs ∧ u.instrs = st.instrs ∧ t.labels = st.labels ∧ u.labels = st.labels

/-- `.word` of a decimal literal, in any spelling of its value, writes four big-endian bytes at the data pointer, with no
alignment, and advances it by 4 (30_encoding.md section 2). That addresses and data pointer wrap at the top of the address
space is the model's inference (DEDUCED, assumption 16). -/
def Obligations.WordDirectiveWritesFourBytes : Prop :=
  ∀ (n : Nat) (lit : Token) (v : Word) (st : LoaderState), st.sect = .data → literalValue lit = some v →
    contentLine n (".word ".toList ++ lit) st =
      .ok { st with data := st.data ++ (List.range 4).map fun k => (st.dataPtr + BitVec.ofNat 32 k, bigEndianByte v k),
                    dataPtr := st.dataPtr + 4 }

/-- A label is bound to the current section's pointer and moves no pointer, and the text after its colon is then processed
as a line's content; a name bound twice is refused, and so is a line whose colon lies between quotes (30_encoding.md
section 2; assumption 7). `pad` is whitespace between the name and the colon. -/
def Obligations.LabelBindsTheSectionPointer : Prop :=
  ∀ (n : Nat) (name pad after : Text) (st : LoaderState), name ≠ [] → (∀ c ∈ name, isSpace c = false ∧ c ≠ ':') →
    (∀ c ∈ pad, isSpace c = true) →
    (betweenQuotes name after = false → name ∉ st.labels.map Prod.fst →
      let bound := { st with labels := st.labels ++ [(name, if st.sect = .text then st.textPtr else st.dataPtr)] }
      labelledLine n (name ++ pad ++ ':' :: after) st =
        if ∀ c ∈ after, isSpace c = true then .ok bound else contentLine n (trim after) bound) ∧
    (betweenQuotes name after = false → name ∈ st.labels.map Prod.fst →
      labelledLine n (name ++ pad ++ ':' :: after) st = .error (.refused .duplicateLabel)) ∧
    (betweenQuotes name after = true →
      labelledLine n (name ++ pad ++ ':' :: after) st = .error (.refused .badLabel))

/-- A Program that breaks R72 is refused, one that keeps it is installed (30_encoding.md section 1, the spec's decision D26;
assumption 10). -/
def Obligations.MalformedProgramIsRefused : Prop :=
  ∀ (P : Program) (s : State),
    (P.wf = true → loadProgram P s = .installed (installProgram s P)) ∧
    (P.wf = false → loadProgram P s = .refused .malformedProgram) ∧
    (P.wf = true ↔ (∀ k I, P.instrs[k]? = some I → I.address.toNat = Config.textBase.toNat + 4 * k ∧ I.wf = true) ∧
      (P.labels.map Prod.fst).Nodup)

/-- Reassembly stops a continuous run before the new Program runs; a yield point steps the block in continuous mode only
(70_reset_and_hazards.md section 1; 60_exceptions.md section 6; assumption 17). -/
def Obligations.HostRunLoop : Prop :=
  (∀ (h : Scheduler) src t, assembleOp src h.machine = .installed t →
    h.command (.assemble src) = .next { machine := t, continuous := false }) ∧
  (∀ h : Scheduler, h.continuous = false → h.command .yieldPoint = .next h) ∧
  (∀ (h : Scheduler) t, h.continuous = true → step h.machine = .next t →
    h.command .yieldPoint = .next { machine := t, continuous := true }) ∧
  (∀ (h : Scheduler) on, h.command (.setRunning on) = .next { machine := h.machine, continuous := on })
end

