-- ==== Sys2Proof/Laws/Decode.lean ====
section
/-! SUPPORT. One lemma per decoding function: what it gives on an encoded operand, and what it accepts
(30_encoding.md R85 to R91). -/

namespace Sys2Proof

/-! ## Registers -/

/-- A register's name resolves to it. -/
@[simp] theorem lookup_registerName (r : Reg) : lookupToken (registerName r) registerTable = some r := by
  revert r; decide

/-- A looked-up value stands in the list beside its token. -/
theorem mem_of_lookupToken {α : Type} {t : Token} {l : List (Token × α)} {v : α} (h : lookupToken t l = some v) :
    (t, v) ∈ l := by
  induction l with
  | nil => simp [lookupToken] at h
  | cons p rest ih =>
    obtain ⟨k, w⟩ := p
    simp only [lookupToken] at h
    split at h
    · rename_i e; cases h; simp [e]
    · exact List.mem_cons_of_mem _ (ih h)

/-- A token that is no key is bound to nothing. -/
theorem lookupToken_eq_none_iff {α : Type} {t : Token} {l : List (Token × α)} :
    lookupToken t l = none ↔ t ∉ l.map Prod.fst := by
  induction l with
  | nil => simp [lookupToken]
  | cons p rest ih =>
    obtain ⟨k, w⟩ := p
    simp only [lookupToken, List.map_cons, List.mem_cons]
    split
    · simp_all
    · simp_all

theorem registerTable_names : ∀ p ∈ registerTable, p.1 = registerName p.2 := by decide

/-- The register table binds exactly the 32 names (10_state.md R23). -/
theorem lookup_register_iff (t : Token) (r : Reg) : lookupToken t registerTable = some r ↔ t = registerName r := by
  constructor
  · intro h; exact registerTable_names _ (mem_of_lookupToken h)
  · rintro rfl; exact lookup_registerName r

/-- `reg(k)` on a name (R85). -/
@[simp] theorem resolveReg_registerName (r : Reg) : resolveReg (registerName r) = .ok r := by
  simp [resolveReg]

theorem resolveReg_ok_iff (t : Token) (r : Reg) : resolveReg t = .ok r ↔ t = registerName r := by
  rw [← lookup_register_iff]
  unfold resolveReg
  cases lookupToken t registerTable <;> simp

theorem resolveReg_error {t : Token} (h : ∀ r, t ≠ registerName r) : resolveReg t = .error .badRegister := by
  unfold resolveReg
  cases e : lookupToken t registerTable with
  | none => rfl
  | some r => exact absurd ((lookup_register_iff t r).mp e) (h r)

/-! ## Decimal literals -/

theorem readDigits_append (a b : Text) (acc : Nat) :
    readDigits (a ++ b) acc = (readDigits a acc).bind (readDigits b) := by
  induction a generalizing acc with
  | nil => rfl
  | cons c cs ih =>
    simp only [List.cons_append, readDigits]
    cases digitValue c with
    | none => rfl
    | some d => exact ih _

theorem digitValue_digitChar {d : Nat} (h : d < 10) : digitValue (digitChar d) = some d := by
  interval_cases d <;> decide

/-- The digits of a number read back as the number. -/
theorem readDigits_decimalDigits (fuel n : Nat) (h : n < 10 ^ fuel) (h0 : fuel ≠ 0) :
    readDigits (decimalDigits fuel n) 0 = some n := by
  induction fuel generalizing n with
  | zero => exact absurd rfl h0
  | succ f ih =>
    simp only [decimalDigits]
    split
    · rename_i hn
      simp [readDigits, digitValue_digitChar hn]
    · rename_i hn
      have hf : f ≠ 0 := by rintro rfl; simp at h; omega
      have hd : n / 10 < 10 ^ f := by rw [pow_succ] at h; omega
      have hm : n % 10 < 10 := Nat.mod_lt _ (by decide)
      rw [readDigits_append, ih _ hd hf]
      simp only [Option.bind_some, readDigits, digitValue_digitChar hm]
      congr 1; omega

theorem decimalDigits_ne_nil (fuel n : Nat) (h : fuel ≠ 0) : decimalDigits fuel n ≠ [] := by
  cases fuel with
  | zero => exact absurd rfl h
  | succ f => unfold decimalDigits; split <;> simp

theorem readNat_decimalDigits {n : Nat} (h : n < 10 ^ 10) : readNat (decimalDigits 10 n) = some n := by
  simp [readNat, decimalDigits_ne_nil, readDigits_decimalDigits 10 n h (by decide)]

/-- Every character of the digits is an ASCII digit. -/
theorem decimalDigits_chars (fuel n : Nat) : ∀ c ∈ decimalDigits fuel n, ∃ d, d < 10 ∧ c = digitChar d := by
  induction fuel generalizing n with
  | zero => simp [decimalDigits]
  | succ f ih =>
    simp only [decimalDigits]
    split
    · rename_i hn; simpa using ⟨n, hn, rfl⟩
    · intro c hc
      rcases List.mem_append.mp hc with hc | hc
      · exact ih _ c hc
      · exact ⟨n % 10, Nat.mod_lt _ (by decide), by simpa using hc⟩

theorem digitChar_ne_minus {d : Nat} (h : d < 10) : digitChar d ≠ '-' := by
  interval_cases d <;> decide

theorem decimalDigits_head (fuel n : Nat) : ∀ c cs, decimalDigits fuel n = c :: cs → c ≠ '-' := by
  intro c cs h
  obtain ⟨d, hd, rfl⟩ := decimalDigits_chars fuel n c (by simp [h])
  exact digitChar_ne_minus hd

/-- The signed decimal representation reads back as the integer. -/
theorem readInt_decimalText {n : Int} (h : n.natAbs < 10 ^ 10) : readInt (decimalText n) = some n := by
  unfold decimalText
  split
  · rename_i hn
    simp only [readInt, if_true, readNat_decimalDigits h]
    exact congrArg some (by rw [Int.ofNat_eq_natCast]; omega)
  · rename_i hn
    have hr := readNat_decimalDigits h
    cases e : decimalDigits 10 n.natAbs with
    | nil => exact absurd e (decimalDigits_ne_nil _ _ (by decide))
    | cons c cs =>
      rw [e] at hr
      simp only [readInt, decimalDigits_head _ _ c cs e, if_false, hr]
      exact congrArg some (by rw [Int.ofNat_eq_natCast]; omega)

/-- An encoded value is a literal of that value (R87). -/
@[simp] theorem literalValue_encodeVal (v : Word) : literalValue (encodeVal v) = some v := by
  have h1 := BitVec.le_toInt v
  have h2 := BitVec.toInt_lt (x := v)
  have h3 : readInt (decimalText v.toInt) = some v.toInt := readInt_decimalText (by omega)
  have h4 : literalInRange v.toInt = true := by unfold literalInRange; simp; omega
  unfold literalValue encodeVal
  rw [h3]
  simp [h4, wrap32]

/-! ## Characters of encoded tokens -/

/-- A character that may stand in a token of an encoded table instruction and is not a parenthesis. -/
def plainChar (c : Char) : Bool := !isSeparator c && c != '(' && c != ')'

theorem registerName_plain : ∀ r : Reg, (registerName r).all plainChar = true := by decide

theorem registerName_ne_nil : ∀ r : Reg, registerName r ≠ [] := by decide

theorem digitChar_plain {d : Nat} (h : d < 10) : plainChar (digitChar d) = true := by
  interval_cases d <;> decide

theorem encodeVal_plain (v : Word) : (encodeVal v).all plainChar = true := by
  have hd : ∀ n, (decimalDigits 10 n).all plainChar = true := fun n => by
    rw [List.all_eq_true]
    intro c hc
    obtain ⟨d, hd, rfl⟩ := decimalDigits_chars 10 n c hc
    exact digitChar_plain hd
  unfold encodeVal decimalText
  split
  · rw [List.all_cons, hd]; decide
  · exact hd _

theorem encodeVal_ne_nil (v : Word) : encodeVal v ≠ [] := by
  unfold encodeVal decimalText
  split
  · simp
  · exact decimalDigits_ne_nil _ _ (by decide)

theorem wf_of_plain {t : Token} (h : t.all plainChar = true) (h0 : t ≠ []) : Token.wf t = true := by
  unfold Token.wf
  simp only [Bool.and_eq_true, Bool.not_eq_true', List.isEmpty_eq_false_iff]
  refine ⟨h0, ?_⟩
  rw [List.all_eq_true] at h ⊢
  intro c hc
  have := h c hc
  simp only [plainChar, Bool.and_eq_true] at this
  exact this.1.1

theorem registerName_wf (r : Reg) : Token.wf (registerName r) = true :=
  wf_of_plain (registerName_plain r) (registerName_ne_nil r)

theorem encodeVal_wf (v : Word) : Token.wf (encodeVal v) = true := wf_of_plain (encodeVal_plain v) (encodeVal_ne_nil v)

theorem encodeMem_wf (off : Word) (base : Reg) : Token.wf (encodeMem off base) = true := by
  have h1 := encodeVal_plain off
  have h2 := registerName_plain base
  unfold Token.wf encodeMem
  rw [List.all_eq_true] at h1 h2
  simp only [Bool.and_eq_true, Bool.not_eq_true', List.isEmpty_eq_false_iff, List.all_eq_true]
  refine ⟨by simp, fun c hc => ?_⟩
  simp only [List.mem_append, List.mem_cons, List.not_mem_nil, or_false] at hc
  rcases hc with hc | rfl | hc | rfl
  · have := h1 c hc
    simp only [plainChar, Bool.and_eq_true] at this
    simpa using this.1.1
  · decide
  · have := h2 c hc
    simp only [plainChar, Bool.and_eq_true] at this
    simpa using this.1.1
  · decide

/-! ## Memory tokens -/

theorem takeWhile_append_stop {p : Char → Bool} {a b : Text} {c : Char} (ha : ∀ x ∈ a, p x = true) (hc : p c = false) :
    (a ++ c :: b).takeWhile p = a ∧ (a ++ c :: b).dropWhile p = c :: b := by
  induction a with
  | nil => simp [hc]
  | cons x xs ih =>
    have hx := ha x (by simp)
    have := ih fun y hy => ha y (by simp [hy])
    simp [hx, this]

/-- `mem(k)` on `<lit>(<reg>)` (R88). -/
theorem resolveMem_form {lit : Token} {off : Word} {base : Reg} (h : literalValue lit = some off)
    (hp : ∀ c ∈ lit, c ≠ '(') : resolveMem (lit ++ '(' :: (registerName base ++ [')'])) = .ok (off, base) := by
  obtain ⟨h1, h2⟩ := takeWhile_append_stop (p := (· ≠ '(')) (a := lit) (b := registerName base ++ [')']) (c := '(')
    (fun x hx => by simpa using hp x hx) (by simp)
  unfold resolveMem
  rw [h1, h2, h]
  simp [readBase]

/-- An encoded memory operand resolves to its offset and base. -/
@[simp] theorem resolveMem_encodeMem (off : Word) (base : Reg) : resolveMem (encodeMem off base) = .ok (off, base) := by
  refine resolveMem_form (literalValue_encodeVal off) fun c hc e => ?_
  have := encodeVal_plain off
  rw [List.all_eq_true] at this
  have := this c hc
  simp [plainChar, e] at this

/-- `val(k)` on an encoded value that no label shadows (R86). -/
theorem resolveVal_encodeVal {labels : Labels} {v : Word} (h : lookupToken (encodeVal v) labels = none) :
    resolveVal labels (encodeVal v) = .ok v := by
  simp [resolveVal, h]

/-- The label table names no decimal literal. -/
def NoNumericLabel (labels : Labels) : Prop := ∀ p ∈ labels, literalValue p.1 = none

theorem NoNumericLabel.lookup {labels : Labels} (h : NoNumericLabel labels) (v : Word) :
    lookupToken (encodeVal v) labels = none := by
  cases e : lookupToken (encodeVal v) labels with
  | none => rfl
  | some w => simpa using h _ (mem_of_lookupToken e)

/-- Operand resolution that succeeded goes on. -/
@[simp] theorem resolved_ok {α : Type} (a : α) (k : α → Decoded) : resolved (.ok a) k = k a := rfl

@[simp] theorem resolved_error {α : Type} (f : FaultKind) (k : α → Decoded) :
    resolved (.error f) k = .fault f := rfl

/-! ## Dispatch: what each table mnemonic decodes by (30_encoding.md R83, R91) -/

section
variable (L : Labels)

@[simp] theorem decodeTokens_add : decodeTokens L ['a', 'd', 'd'] = decodeRRR .add := rfl
@[simp] theorem decodeTokens_addu : decodeTokens L ['a', 'd', 'd', 'u'] = decodeRRR .addu := rfl
@[simp] theorem decodeTokens_sub : decodeTokens L ['s', 'u', 'b'] = decodeRRR .sub := rfl
@[simp] theorem decodeTokens_subu : decodeTokens L ['s', 'u', 'b', 'u'] = decodeRRR .subu := rfl
@[simp] theorem decodeTokens_addi : decodeTokens L ['a', 'd', 'd', 'i'] = decodeRRV L .addi := rfl
@[simp] theorem decodeTokens_addiu : decodeTokens L ['a', 'd', 'd', 'i', 'u'] = decodeRRV L .addiu := rfl
@[simp] theorem decodeTokens_mul : decodeTokens L ['m', 'u', 'l'] = decodeRRR .mul := rfl
@[simp] theorem decodeTokens_and : decodeTokens L ['a', 'n', 'd'] = decodeRRR .and := rfl
@[simp] theorem decodeTokens_or : decodeTokens L ['o', 'r'] = decodeRRR .or := rfl
@[simp] theorem decodeTokens_xor : decodeTokens L ['x', 'o', 'r'] = decodeRRR .xor := rfl
@[simp] theorem decodeTokens_sll : decodeTokens L ['s', 'l', 'l'] = decodeRRV L .sll := rfl
@[simp] theorem decodeTokens_srl : decodeTokens L ['s', 'r', 'l'] = decodeRRV L .srl := rfl
@[simp] theorem decodeTokens_slt : decodeTokens L ['s', 'l', 't'] = decodeRRR .slt := rfl
@[simp] theorem decodeTokens_slti : decodeTokens L ['s', 'l', 't', 'i'] = decodeRRV L .slti := rfl
@[simp] theorem decodeTokens_lui : decodeTokens L ['l', 'u', 'i'] = decodeRV L .lui := rfl
@[simp] theorem decodeTokens_li : decodeTokens L ['l', 'i'] = decodeRV L .li := rfl
@[simp] theorem decodeTokens_la : decodeTokens L ['l', 'a'] = decodeRV L .la := rfl
@[simp] theorem decodeTokens_move : decodeTokens L ['m', 'o', 'v', 'e'] = decodeRR .move := rfl
@[simp] theorem decodeTokens_lw : decodeTokens L ['l', 'w'] = decodeRM .lw := rfl
@[simp] theorem decodeTokens_sw : decodeTokens L ['s', 'w'] = decodeRM .sw := rfl
@[simp] theorem decodeTokens_lb : decodeTokens L ['l', 'b'] = decodeRM .lb := rfl
@[simp] theorem decodeTokens_sb : decodeTokens L ['s', 'b'] = decodeRM .sb := rfl
@[simp] theorem decodeTokens_beq : decodeTokens L ['b', 'e', 'q'] = decodeRRV L .beq := rfl
@[simp] theorem decodeTokens_bne : decodeTokens L ['b', 'n', 'e'] = decodeRRV L .bne := rfl
@[simp] theorem decodeTokens_j : decodeTokens L ['j'] = decodeV L .j := rfl
@[simp] theorem decodeTokens_jal : decodeTokens L ['j', 'a', 'l'] = decodeV L .jal := rfl
@[simp] theorem decodeTokens_jr : decodeTokens L ['j', 'r'] = decodeR .jr := rfl
@[simp] theorem decodeTokens_syscall : decodeTokens L ['s', 'y', 's', 'c', 'a', 'l', 'l'] = decodeN .syscall := rfl

/-- A mnemonic that is no key of the dispatch table is outside the 28 (R91). -/
theorem lookup_opcodeTable_none_iff (m : Token) : lookupToken m (opcodeTable L) = none ↔ m ∉ tableMnemonics := by
  rw [lookupToken_eq_none_iff]; rfl

/-- An unrecognised mnemonic decodes to the no-op (R190). -/
theorem decodeTokens_other {m : Token} (ops : List Token) (h : m ∉ tableMnemonics) (h' : asciiLower m ∉ tableMnemonics) :
    decodeTokens L m ops = .op (.other m ops) := by
  simp [decodeTokens, (lookup_opcodeTable_none_iff L m).mpr h, h']

/-- A case variant is refused (R91). -/
theorem decodeTokens_caseVariant {m : Token} (ops : List Token) (h : m ∉ tableMnemonics)
    (h' : asciiLower m ∈ tableMnemonics) : decodeTokens L m ops = .refused .caseVariantMnemonic := by
  simp [decodeTokens, (lookup_opcodeTable_none_iff L m).mpr h, h']

end

end Sys2Proof
end

