-- ==== Sys2Proof/Laws/Memory.lean ====
section
/-! SUPPORT. Read-after-write laws of the memory operations, and that each keeps the canonical form (20_memory.md R50 to
R57). -/

namespace Sys2Proof.Machine

/-! ## Cells -/

/-- An address that is not listed reads as 0. -/
theorem cellAt_of_not_mem {m : Memory} {a : Nat} (h : ∀ c ∈ m, c.1 ≠ a) : cellAt m a = 0 := by
  induction m with
  | nil => rfl
  | cons c rest ih =>
    have hc : c.1 ≠ a := h c (by simp)
    simp only [cellAt, hc, if_false]
    exact ih fun d hd => h d (by simp [hd])

theorem cellAt_eraseCell_self (m : Memory) (a : Nat) : cellAt (eraseCell m a) a = 0 :=
  cellAt_of_not_mem fun c hc => by simpa [eraseCell] using (List.mem_filter.mp hc).2

theorem cellAt_eraseCell_ne (m : Memory) {a b : Nat} (h : b ≠ a) : cellAt (eraseCell m a) b = cellAt m b := by
  induction m with
  | nil => rfl
  | cons c rest ih =>
    unfold eraseCell at ih ⊢
    by_cases hc : c.1 = a
    · have : c.1 ≠ b := fun e => h (e.symm.trans hc)
      rw [List.filter_cons_of_neg (by simpa using hc)]
      simp only [cellAt, this, if_false]
      exact ih
    · rw [List.filter_cons_of_pos (by simpa using hc)]
      simp only [cellAt, ih]

theorem cellAt_insertCell_ne (m : Memory) {a b : Nat} (v : Byte) (h : b ≠ a) :
    cellAt (insertCell m a v) b = cellAt m b := by
  induction m with
  | nil => simp [insertCell, cellAt, Ne.symm h]
  | cons c rest ih =>
    simp only [insertCell]
    split
    · simp [cellAt, Ne.symm h]
    · simp only [cellAt, ih]

theorem cellAt_insertCell_self (m : Memory) (a : Nat) (v : Byte) (h : ∀ c ∈ m, c.1 ≠ a) :
    cellAt (insertCell m a v) a = v := by
  induction m with
  | nil => simp [insertCell, cellAt]
  | cons c rest ih =>
    simp only [insertCell]
    split
    · simp [cellAt]
    · have hc : c.1 ≠ a := h c (by simp)
      simp only [cellAt, hc, if_false]
      exact ih fun d hd => h d (by simp [hd])

theorem mem_insertCell {m : Memory} {a : Nat} {v : Byte} {c : Host.Cell} :
    c ∈ insertCell m a v ↔ c = (a, v) ∨ c ∈ m := by
  induction m with
  | nil => simp [insertCell]
  | cons d rest ih =>
    simp only [insertCell]
    split
    · simp
    · simp only [List.mem_cons, ih]; tauto

theorem eraseCell_no_address (m : Memory) (a : Nat) : ∀ c ∈ eraseCell m a, c.1 ≠ a := fun c hc => by
  simpa [eraseCell] using (List.mem_filter.mp hc).2

/-! ## Bytes -/

/-- A byte reads as it was written. -/
@[simp] theorem readByte_writeByte_self (m : Memory) (a : Word) (v : Byte) : readByte (writeByte m a v) a = v := by
  unfold writeByte readByte
  split
  · rename_i h; rw [cellAt_eraseCell_self, h]
  · exact cellAt_insertCell_self _ _ _ (eraseCell_no_address m _)

/-- A byte write leaves every other address alone. -/
theorem readByte_writeByte_ne (m : Memory) {a b : Word} (v : Byte) (h : b ≠ a) :
    readByte (writeByte m a v) b = readByte m b := by
  have hn : b.toNat ≠ a.toNat := fun e => h (BitVec.eq_of_toNat_eq e)
  unfold writeByte readByte
  split
  · exact cellAt_eraseCell_ne m hn
  · rw [cellAt_insertCell_ne _ _ hn, cellAt_eraseCell_ne m hn]

/-- What a byte reads as after a byte write. -/
theorem readByte_writeByte (m : Memory) (a b : Word) (v : Byte) :
    readByte (writeByte m a v) b = if b = a then v else readByte m b := by
  by_cases h : b = a
  · subst h; simp
  · simp [h, readByte_writeByte_ne m v h]

/-! ## Words -/

/-- What a byte reads as after a word write: one of the four bytes of the word, or what was there (R55, R57). -/
theorem readByte_writeWord (m : Memory) (a b : Word) (v : Word) :
    readByte (writeWord m a v) b =
      if b = a then wordByte v 0
      else if b = a + 1 then wordByte v 1
      else if b = a + 2 then wordByte v 2
      else if b = a + 3 then wordByte v 3
      else readByte m b := by
  have h1 : a ≠ a + 1 := by bv_omega
  have h2 : a ≠ a + 2 := by bv_omega
  have h3 : a ≠ a + 3 := by bv_omega
  have h4 : a + 1 ≠ a + 2 := by bv_omega
  have h5 : a + 1 ≠ a + 3 := by bv_omega
  have h6 : a + 2 ≠ a + 3 := by bv_omega
  unfold writeWord
  rw [readByte_writeByte, readByte_writeByte, readByte_writeByte, readByte_writeByte]
  by_cases e0 : b = a
  · subst e0; simp
  · by_cases e1 : b = a + 1
    · subst e1; simp
    · by_cases e2 : b = a + 2
      · subst e2; simp
      · rw [if_neg e2, if_neg e1, if_neg e0, if_neg e0, if_neg e1, if_neg e2]

/-- The four bytes of a word, put together again, are the word. -/
theorem wordByte_append (v : Word) : wordByte v 0 ++ wordByte v 1 ++ wordByte v 2 ++ wordByte v 3 = v := by
  apply BitVec.eq_of_getLsbD_eq
  intro i hi
  simp only [wordByte, BitVec.getLsbD_append, BitVec.getLsbD_extractLsb']
  by_cases h3 : i < 8
  · simp [h3]
  · by_cases h2 : i < 16
    · have : i - 8 < 8 := by omega
      simp [h3, this]; congr 1; omega
    · by_cases h1 : i < 24
      · have a1 : ¬ i - 8 < 8 := by omega
        have a2 : i - 8 - 8 < 8 := by omega
        simp [h3, a1, a2]; congr 1; omega
      · have a1 : ¬ i - 8 < 8 := by omega
        have a2 : ¬ i - 8 - 8 < 8 := by omega
        have a3 : i - 8 - 8 - 8 < 8 := by omega
        simp [h3, a1, a2, a3]; congr 1; omega

/-- A word reads as it was written (R57). -/
@[simp] theorem readWord_writeWord_self (m : Memory) (a v : Word) : readWord (writeWord m a v) a = v := by
  have h1 : a + 1 ≠ a := by bv_omega
  have h2 : a + 2 ≠ a := by bv_omega
  have h3 : a + 3 ≠ a := by bv_omega
  have h4 : a + 2 ≠ a + 1 := by bv_omega
  have h5 : a + 3 ≠ a + 1 := by bv_omega
  have h6 : a + 3 ≠ a + 2 := by bv_omega
  unfold readWord
  simp only [readByte_writeWord, if_true, h1, h2, h3, h4, h5, h6, if_false]
  exact wordByte_append v

/-! ## The canonical form -/

theorem eraseCell_wf {m : Memory} (h : Memory.wf m) (a : Nat) : Memory.wf (eraseCell m a) :=
  ⟨h.1.filter _, fun c hc => h.2 c (List.mem_filter.mp hc).1⟩

theorem insertCell_wf {m : Memory} (h : Memory.wf m) {a : Nat} {v : Byte} (hm : ∀ c ∈ m, c.1 ≠ a) (hv : v ≠ 0)
    (ha : a < 2 ^ 32) : Memory.wf (insertCell m a v) := by
  refine ⟨?_, fun c hc => ?_⟩
  · have hp := h.1
    clear h
    induction m with
    | nil => simp [insertCell]
    | cons d rest ih =>
      have hd := List.pairwise_cons.mp hp
      simp only [insertCell]
      split
      · rename_i hlt
        refine List.pairwise_cons.mpr ⟨fun e he => ?_, hp⟩
        rcases List.mem_cons.mp he with rfl | he
        · exact hlt
        · exact Nat.lt_trans hlt (hd.1 e he)
      · rename_i hge
        have hne : d.1 ≠ a := hm d (by simp)
        refine List.pairwise_cons.mpr ⟨fun e he => ?_, ih (fun c hc => hm c (by simp [hc])) hd.2⟩
        rcases mem_insertCell.mp he with rfl | he
        · show d.1 < a
          omega
        · exact hd.1 e he
  · rcases mem_insertCell.mp hc with rfl | hc
    · exact ⟨hv, ha⟩
    · exact h.2 c hc

/-- A byte write keeps the canonical form. -/
theorem writeByte_wf {m : Memory} (h : Memory.wf m) (a : Word) (v : Byte) : Memory.wf (writeByte m a v) := by
  unfold writeByte
  split
  · exact eraseCell_wf h _
  · exact insertCell_wf (eraseCell_wf h _) (eraseCell_no_address m _) ‹_› a.isLt

/-- A word write keeps the canonical form. -/
theorem writeWord_wf {m : Memory} (h : Memory.wf m) (a v : Word) : Memory.wf (writeWord m a v) :=
  writeByte_wf (writeByte_wf (writeByte_wf (writeByte_wf h _ _) _ _) _ _) _ _

/-- Writing an image keeps the canonical form. -/
theorem writeImage_wf {m : Memory} (h : Memory.wf m) (image : List (Word × Byte)) : Memory.wf (writeImage m image) := by
  unfold writeImage
  induction image generalizing m with
  | nil => exact h
  | cons c rest ih => exact ih (writeByte_wf h _ _)

/-- The memory of a reset machine is in canonical form. -/
theorem reset_memory_wf : Memory.wf State.reset.mem := by decide

/-- In canonical form, a cell is listed exactly where its byte is read. -/
theorem cellAt_eq_iff_mem {m : Memory} (h : Memory.wf m) (a : Nat) (v : Byte) (hv : v ≠ 0) :
    cellAt m a = v ↔ (a, v) ∈ m := by
  induction m with
  | nil => exact ⟨fun e => absurd e.symm hv, fun e => absurd e (by simp)⟩
  | cons c rest ih =>
    have hp := List.pairwise_cons.mp h.1
    have hr : Memory.wf rest := ⟨hp.2, fun d hd => h.2 d (by simp [hd])⟩
    simp only [cellAt, List.mem_cons]
    split
    · rename_i hc
      constructor
      · intro e; left; rw [← hc, ← e]
      · rintro (e | e)
        · rw [← e]
        · have := hp.1 _ e; omega
    · rename_i hc
      rw [ih hr]
      constructor
      · exact .inr
      · rintro (e | e)
        · exact absurd (by rw [← e]) hc
        · exact e

/-- Equal memories are equal data: two memories in canonical form that read the same everywhere are the same list. -/
theorem memory_ext {m n : Memory} (hm : Memory.wf m) (hn : Memory.wf n) (h : ∀ a, readByte m a = readByte n a) :
    m = n := by
  have hmem : ∀ c : Host.Cell, c ∈ m ↔ c ∈ n := fun c => by
    have key : ∀ {p q : Memory}, Memory.wf p → Memory.wf q → (∀ a, readByte p a = readByte q a) → c ∈ p → c ∈ q :=
      fun {p q} hp hq hr hc => by
        have hb := hp.2 c hc
        have hv := hr (BitVec.ofNat 32 c.1)
        simp only [readByte, BitVec.toNat_ofNat, Nat.mod_eq_of_lt hb.2] at hv
        rw [(cellAt_eq_iff_mem hp c.1 c.2 hb.1).mpr hc] at hv
        exact (cellAt_eq_iff_mem hq c.1 c.2 hb.1).mp hv.symm
    exact ⟨key hm hn h, key hn hm fun a => (h a).symm⟩
  have nd : ∀ {p : Memory}, Memory.wf p → p.Nodup := fun hp =>
    hp.1.imp fun hlt e => by rw [e] at hlt; exact Nat.lt_irrefl _ hlt
  exact ((List.perm_ext_iff_of_nodup (nd hm) (nd hn)).mpr hmem).eq_of_pairwise
    (fun c d _ _ h1 h2 => absurd h1 (Nat.lt_asymm h2)) hm.1 hn.1

end Sys2Proof.Machine
end

