-- ==== Sys2Proof/Laws/State.lean ====
section
/-! SUPPORT. One lemma per field per update of State, and what a register read gives after each update. -/

namespace Sys2Proof.Machine

variable (s : State)

@[simp] theorem State.setPc_regs (w : Word) : (s.setPc w).regs = s.regs := rfl
@[simp] theorem State.setPc_pc (w : Word) : (s.setPc w).pc = w := rfl
@[simp] theorem State.setPc_mem (w : Word) : (s.setPc w).mem = s.mem := rfl
@[simp] theorem State.setPc_out (w : Word) : (s.setPc w).out = s.out := rfl
@[simp] theorem State.setPc_status (w : Word) : (s.setPc w).status = s.status := rfl
@[simp] theorem State.setPc_program (w : Word) : (s.setPc w).program = s.program := rfl
@[simp] theorem State.setPc_draws (w : Word) : (s.setPc w).draws = s.draws := rfl

@[simp] theorem State.advance_regs : (s.advance).regs = s.regs := rfl
@[simp] theorem State.advance_pc : (s.advance).pc = s.pc + 4 := rfl
@[simp] theorem State.advance_mem : (s.advance).mem = s.mem := rfl
@[simp] theorem State.advance_out : (s.advance).out = s.out := rfl
@[simp] theorem State.advance_status : (s.advance).status = s.status := rfl
@[simp] theorem State.advance_program : (s.advance).program = s.program := rfl
@[simp] theorem State.advance_draws : (s.advance).draws = s.draws := rfl

@[simp] theorem State.emit_regs (bs : List Byte) : (s.emit bs).regs = s.regs := rfl
@[simp] theorem State.emit_pc (bs : List Byte) : (s.emit bs).pc = s.pc := rfl
@[simp] theorem State.emit_mem (bs : List Byte) : (s.emit bs).mem = s.mem := rfl
@[simp] theorem State.emit_out (bs : List Byte) : (s.emit bs).out = s.out ++ bs := rfl
@[simp] theorem State.emit_status (bs : List Byte) : (s.emit bs).status = s.status := rfl
@[simp] theorem State.emit_program (bs : List Byte) : (s.emit bs).program = s.program := rfl
@[simp] theorem State.emit_draws (bs : List Byte) : (s.emit bs).draws = s.draws := rfl

@[simp] theorem State.setStatus_regs (v : Status) : (s.setStatus v).regs = s.regs := rfl
@[simp] theorem State.setStatus_pc (v : Status) : (s.setStatus v).pc = s.pc := rfl
@[simp] theorem State.setStatus_mem (v : Status) : (s.setStatus v).mem = s.mem := rfl
@[simp] theorem State.setStatus_out (v : Status) : (s.setStatus v).out = s.out := rfl
@[simp] theorem State.setStatus_status (v : Status) : (s.setStatus v).status = v := rfl
@[simp] theorem State.setStatus_program (v : Status) : (s.setStatus v).program = s.program := rfl
@[simp] theorem State.setStatus_draws (v : Status) : (s.setStatus v).draws = s.draws := rfl

@[simp] theorem State.setMem_regs (m : Memory) : (s.setMem m).regs = s.regs := rfl
@[simp] theorem State.setMem_pc (m : Memory) : (s.setMem m).pc = s.pc := rfl
@[simp] theorem State.setMem_mem (m : Memory) : (s.setMem m).mem = m := rfl
@[simp] theorem State.setMem_out (m : Memory) : (s.setMem m).out = s.out := rfl
@[simp] theorem State.setMem_status (m : Memory) : (s.setMem m).status = s.status := rfl
@[simp] theorem State.setMem_program (m : Memory) : (s.setMem m).program = s.program := rfl
@[simp] theorem State.setMem_draws (m : Memory) : (s.setMem m).draws = s.draws := rfl

@[simp] theorem State.raiseFault_regs (k : FaultKind) (I : Record) : (s.raiseFault k I).regs = s.regs := rfl
@[simp] theorem State.raiseFault_pc (k : FaultKind) (I : Record) : (s.raiseFault k I).pc = s.pc := rfl
@[simp] theorem State.raiseFault_mem (k : FaultKind) (I : Record) : (s.raiseFault k I).mem = s.mem := rfl
@[simp] theorem State.raiseFault_out (k : FaultKind) (I : Record) : (s.raiseFault k I).out = s.out := rfl
@[simp] theorem State.raiseFault_status (k : FaultKind) (I : Record) : (s.raiseFault k I).status = .faulted s.pc (Config.faultMessage s.draws k I) := rfl
@[simp] theorem State.raiseFault_program (k : FaultKind) (I : Record) : (s.raiseFault k I).program = s.program := rfl
@[simp] theorem State.raiseFault_draws (k : FaultKind) (I : Record) : (s.raiseFault k I).draws = s.draws + 1 := rfl

@[simp] theorem State.setReg_pc (r : Reg) (v : Word) : (s.setReg r v).pc = s.pc := by
  unfold State.setReg; split <;> rfl
@[simp] theorem State.setReg_mem (r : Reg) (v : Word) : (s.setReg r v).mem = s.mem := by
  unfold State.setReg; split <;> rfl
@[simp] theorem State.setReg_out (r : Reg) (v : Word) : (s.setReg r v).out = s.out := by
  unfold State.setReg; split <;> rfl
@[simp] theorem State.setReg_status (r : Reg) (v : Word) : (s.setReg r v).status = s.status := by
  unfold State.setReg; split <;> rfl
@[simp] theorem State.setReg_program (r : Reg) (v : Word) : (s.setReg r v).program = s.program := by
  unfold State.setReg; split <;> rfl
@[simp] theorem State.setReg_draws (r : Reg) (v : Word) : (s.setReg r v).draws = s.draws := by
  unfold State.setReg; split <;> rfl

@[simp] theorem State.complete_pc (r : Reg) (v : Word) : (s.complete r v).pc = s.pc + 4 := by
  simp [State.complete]
@[simp] theorem State.complete_mem (r : Reg) (v : Word) : (s.complete r v).mem = s.mem := by
  simp [State.complete]
@[simp] theorem State.complete_out (r : Reg) (v : Word) : (s.complete r v).out = s.out := by
  simp [State.complete]
@[simp] theorem State.complete_status (r : Reg) (v : Word) : (s.complete r v).status = s.status := by
  simp [State.complete]
@[simp] theorem State.complete_program (r : Reg) (v : Word) : (s.complete r v).program = s.program := by
  simp [State.complete]
@[simp] theorem State.complete_draws (r : Reg) (v : Word) : (s.complete r v).draws = s.draws := by
  simp [State.complete]

@[simp] theorem endRun_regs : (endRun s).regs = s.regs := rfl
@[simp] theorem endRun_pc : (endRun s).pc = s.pc := rfl
@[simp] theorem endRun_mem : (endRun s).mem = s.mem := rfl
@[simp] theorem endRun_out : (endRun s).out = s.out := rfl
@[simp] theorem endRun_status : (endRun s).status = .ended := rfl
@[simp] theorem endRun_program : (endRun s).program = s.program := rfl
@[simp] theorem endRun_draws : (endRun s).draws = s.draws := rfl

@[simp] theorem resetOp_regs : (resetOp s).regs = resetRegs := rfl
@[simp] theorem resetOp_pc : (resetOp s).pc = 0x00400000 := rfl
@[simp] theorem resetOp_mem : (resetOp s).mem = [] := rfl
@[simp] theorem resetOp_out : (resetOp s).out = [] := rfl
@[simp] theorem resetOp_status : (resetOp s).status = .running := rfl
@[simp] theorem resetOp_program : (resetOp s).program = s.program := rfl
@[simp] theorem resetOp_draws : (resetOp s).draws = s.draws := rfl

/-! ## Addresses -/

/-- Adding a small number to a word is `wrap32` of the sum (00_scope.md R9). -/
theorem add_ofNat_eq_wrap32 (a : Word) (k : Nat) : a + BitVec.ofNat 32 k = wrap32 ((a.toNat : Int) + k) := by
  unfold wrap32
  apply BitVec.eq_of_toNat_eq
  simp [BitVec.toNat_ofInt]
  omega

/-- The next pc is `wrap32(pc + 4)` (10_state.md R26). -/
theorem State.nextPc_eq_wrap32 : s.nextPc = wrap32 ((s.pc.toNat : Int) + 4) := add_ofNat_eq_wrap32 s.pc 4

/-! ## Register reads -/

/-- Register 0 reads 0 (10_state.md R22). -/
@[simp] theorem State.reg_zero : s.reg 0 = 0 := rfl

/-- A register read depends on the register file only. -/
theorem State.reg_congr {s t : State} (h : t.regs = s.regs) (r : Reg) : t.reg r = s.reg r := by
  simp only [State.reg, h]

/-- A write to register 0 is discarded (10_state.md R22). -/
@[simp] theorem State.setReg_zero (v : Word) : s.setReg 0 v = s := rfl

/-- Reading after writing: the destination unless it is register 0, else what was there. -/
theorem State.reg_setReg (rd : Reg) (v : Word) (r : Reg) :
    (s.setReg rd v).reg r = if r = rd ∧ r ≠ 0 then v else s.reg r := by
  by_cases h0 : rd = 0
  · subst h0
    by_cases hr : r = 0 <;> simp [hr]
  · by_cases hr : r = 0
    · simp [State.reg, hr]
    · by_cases he : r = rd
      · subst he; simp [State.reg, State.setReg, h0]
      · have hne : rd.val ≠ r.val := fun h => he (Fin.ext h.symm)
        simp [State.reg, State.setReg, h0, hr, he, Vector.getElem_set_ne, hne]

@[simp] theorem State.reg_setPc (w : Word) (r : Reg) : (s.setPc w).reg r = s.reg r := rfl
@[simp] theorem State.reg_advance (r : Reg) : s.advance.reg r = s.reg r := rfl
@[simp] theorem State.reg_emit (bs : List Byte) (r : Reg) : (s.emit bs).reg r = s.reg r := rfl
@[simp] theorem State.reg_setStatus (v : Status) (r : Reg) : (s.setStatus v).reg r = s.reg r := rfl
@[simp] theorem State.reg_setMem (m : Memory) (r : Reg) : (s.setMem m).reg r = s.reg r := rfl
@[simp] theorem State.reg_raiseFault (k : FaultKind) (I : Record) (r : Reg) : (s.raiseFault k I).reg r = s.reg r := rfl

/-- Reading after an instruction that writes `rd`. -/
theorem State.reg_complete (rd : Reg) (v : Word) (r : Reg) :
    (s.complete rd v).reg r = if r = rd ∧ r ≠ 0 then v else s.reg r := by
  rw [State.complete, State.reg_advance, State.reg_setReg]

/-- The storage of register 0 is written by no register write. -/
@[simp] theorem State.setReg_regs_zero (r : Reg) (v : Word) : (s.setReg r v).regs[0] = s.regs[0] := by
  unfold State.setReg
  split
  · rfl
  · rename_i h
    have : r.val ≠ 0 := fun h' => h (Fin.ext h')
    simp [Vector.getElem_set_ne, this]

@[simp] theorem State.complete_regs_zero (r : Reg) (v : Word) : (s.complete r v).regs[0] = s.regs[0] := by
  simp [State.complete]

end Sys2Proof.Machine
end

