-- ==== Sys2Proof/Laws/Exec.lean ====
section
/-! SUPPORT. What one instruction and one step can do, said once: every next state is one of the cases listed here. -/

namespace Sys2Proof.Machine

/-! ## The shared meanings -/

theorem aluRegReg_next (op : AluOp) (rd rs rt : Reg) (s : State) :
    aluRegReg op rd rs rt s = .next (s.complete rd (alu op (s.reg rs) (s.reg rt))) := rfl

theorem aluRegVal_next (op : AluOp) (rd rs : Reg) (v : Word) (s : State) :
    aluRegVal op rd rs v s = .next (s.complete rd (alu op (s.reg rs) v)) := rfl

/-- A shift in range completes (40_arithmetic_logic.md R132, R133). -/
theorem aluShift_in_range {sh : Word} (h : sh.toNat ≤ 31) (op : AluOp) (rd rs : Reg) (s : State) :
    aluShift op rd rs sh s = .next (s.complete rd (alu op (s.reg rs) sh)) := by
  simp [aluShift, shiftInRange, h, aluRegVal]

/-- A shift out of range is refused. -/
theorem aluShift_out_of_range {sh : Word} (h : 31 < sh.toNat) (op : AluOp) (rd rs : Reg) (s : State) :
    aluShift op rd rs sh s = .refused .shiftOutOfRange := by
  simp [aluShift, shiftInRange, Nat.not_le.mpr h]

/-- A shift's next state, where it has one. -/
theorem aluShift_next {op : AluOp} {rd rs : Reg} {sh : Word} {s t : State} (h : aluShift op rd rs sh s = .next t) :
    t = s.complete rd (alu op (s.reg rs) sh) := by
  by_cases hs : sh.toNat ≤ 31
  · rw [aluShift_in_range hs] at h; cases h; rfl
  · rw [aluShift_out_of_range (by omega)] at h; cases h

/-! ## syscall -/

/-- What a service leaves: only the output and the status may change (44_system.md R180). -/
theorem syscallService_cases (code arg : Word) (s : State) :
    code = 1 ∧ syscallService code arg s = s.emit (printInt arg) ∨
    code = 4 ∧ syscallService code arg s = s.emit (cstring s.mem Config.printStringCap arg) ∨
    code = 10 ∧ syscallService code arg s = s.setStatus .exited ∨
    code = 11 ∧ syscallService code arg s = s.emit [lowByte arg] ∨
    (code ≠ 1 ∧ code ≠ 4 ∧ code ≠ 10 ∧ code ≠ 11) ∧ syscallService code arg s = s := by
  unfold syscallService
  split_ifs with h1 h2 h3 h4
  · exact .inl ⟨h1, rfl⟩
  · exact .inr (.inl ⟨h2, rfl⟩)
  · exact .inr (.inr (.inl ⟨h3, rfl⟩))
  · exact .inr (.inr (.inr (.inl ⟨h4, rfl⟩)))
  · exact .inr (.inr (.inr (.inr ⟨⟨h1, h2, h3, h4⟩, rfl⟩)))

/-- A service writes no register, no memory, no Program and no pc (R180). -/
theorem syscallService_frame (code arg : Word) (s : State) :
    (syscallService code arg s).regs = s.regs ∧ (syscallService code arg s).pc = s.pc ∧
      (syscallService code arg s).mem = s.mem ∧ (syscallService code arg s).program = s.program := by
  rcases syscallService_cases code arg s with ⟨_, e⟩ | ⟨_, e⟩ | ⟨_, e⟩ | ⟨_, e⟩ | ⟨_, e⟩ <;> rw [e] <;> simp

/-! ## One instruction -/

/-- Every next state of an instruction: it completed into a register, stored, transferred control, linked, served a
syscall, or only advanced. -/
theorem exec_next_cases {i : Instr} {s t : State} (h : exec i s = .next t) :
    (∃ rd v, t = s.complete rd v) ∨
    (∃ rt off base, i = .sw rt off base ∧
      t = (s.setMem (writeWord s.mem (effectiveAddress s off base) (s.reg rt))).advance) ∨
    (∃ rt off base, i = .sb rt off base ∧
      t = (s.setMem (writeByte s.mem (effectiveAddress s off base) (lowByte (s.reg rt)))).advance) ∨
    (∃ w, t = s.setPc w) ∨
    (∃ w, i = .jal w ∧ t = (s.setReg Config.ra s.nextPc).setPc w) ∨
    (i = .syscall ∧ t = (syscallService (s.reg Config.v0) (s.reg Config.a0) s).advance) := by
  cases i with
  | sll rd rs sh => exact .inl ⟨rd, _, aluShift_next h⟩
  | srl rd rs sh => exact .inl ⟨rd, _, aluShift_next h⟩
  | sw rt off base => cases h; exact .inr (.inl ⟨rt, off, base, rfl, rfl⟩)
  | sb rt off base => cases h; exact .inr (.inr (.inl ⟨rt, off, base, rfl, rfl⟩))
  | beq rs rt w =>
    cases h
    exact .inr (.inr (.inr (.inl ⟨_, (apply_ite s.setPc _ w s.nextPc).symm⟩)))
  | bne rs rt w =>
    cases h
    exact .inr (.inr (.inr (.inl ⟨_, (apply_ite s.setPc _ w s.nextPc).symm⟩)))
  | j w => cases h; exact .inr (.inr (.inr (.inl ⟨w, rfl⟩)))
  | jal w => cases h; exact .inr (.inr (.inr (.inr (.inl ⟨w, rfl, rfl⟩))))
  | jr rs => cases h; exact .inr (.inr (.inr (.inl ⟨_, rfl⟩)))
  | syscall => cases h; exact .inr (.inr (.inr (.inr (.inr ⟨rfl, rfl⟩))))
  | other m ops => cases h; exact .inr (.inr (.inr (.inl ⟨_, rfl⟩)))
  | add rd _ _ | addu rd _ _ | sub rd _ _ | subu rd _ _ | addi rd _ _ | addiu rd _ _ | mul rd _ _ | and rd _ _
  | or rd _ _ | xor rd _ _ | slt rd _ _ | slti rd _ _ | lui rd _ | li rd _ | la rd _ | move rd _ | lw rd _ _
  | lb rd _ _ => cases h; exact .inl ⟨rd, _, rfl⟩

/-- No instruction stops with a fault (60_exceptions.md R203). -/
theorem exec_not_fault (i : Instr) (s : State) (f : Fault) : exec i s ≠ .fault f := nomatch f

/-- Only a shift out of range is refused. -/
theorem exec_refused {i : Instr} {s : State} {r : Refusal} (h : exec i s = .refused r) :
    r = .shiftOutOfRange ∧ ∃ rd rs sh, 31 < sh.toNat ∧ (i = .sll rd rs sh ∨ i = .srl rd rs sh) := by
  cases i with
  | sll rd rs sh =>
    by_cases hs : sh.toNat ≤ 31
    · rw [show exec (.sll rd rs sh) s = _ from aluShift_in_range hs .sll rd rs s] at h; cases h
    · rw [show exec (.sll rd rs sh) s = _ from aluShift_out_of_range (by omega) .sll rd rs s] at h
      cases h; exact ⟨rfl, rd, rs, sh, by omega, .inl rfl⟩
  | srl rd rs sh =>
    by_cases hs : sh.toNat ≤ 31
    · rw [show exec (.srl rd rs sh) s = _ from aluShift_in_range hs .srl rd rs s] at h; cases h
    · rw [show exec (.srl rd rs sh) s = _ from aluShift_out_of_range (by omega) .srl rd rs s] at h
      cases h; exact ⟨rfl, rd, rs, sh, by omega, .inr rfl⟩
  | _ => cases h

/-! ## One step -/

theorem step_of_stopped {s : State} (h : s.status ≠ .running) : step s = .next s := by
  unfold step stepState
  cases e : s.status with
  | running => exact absurd e h
  | exited => rfl
  | ended => rfl
  | faulted a m => rfl

theorem step_of_running {s : State} (h : s.status = .running) : step s = stepRunning s := by
  unfold step stepState
  rw [h]

theorem step_of_fetch {s : State} {I : Record} (h : s.status = .running) (hf : fetch s.program s.pc = some I) :
    step s = execute I s := by
  rw [step_of_running h, stepRunning, hf]

/-- A step runs the decoded instruction (10_state.md R36). -/
theorem step_of_op {s : State} {I : Record} {i : Instr} (h : s.status = .running)
    (hf : fetch s.program s.pc = some I) (hd : decode I s.program.labels = .op i) : step s = exec i s := by
  rw [step_of_fetch h hf, execute, hd]

/-- A step takes the runtime fault of the decoder (60_exceptions.md R203). -/
theorem step_of_fault {s : State} {I : Record} {k : FaultKind} (h : s.status = .running)
    (hf : fetch s.program s.pc = some I) (hd : decode I s.program.labels = .fault k) :
    step s = .next (s.raiseFault k I) := by
  rw [step_of_fetch h hf, execute, hd]

theorem step_of_missing {s : State} (h : s.status = .running) (hf : fetch s.program s.pc = none) :
    step s = .next (endRun s) := by
  rw [step_of_running h, stepRunning, hf]

/-- Every next state of a step: a stopped machine unchanged, the end of the run, an instruction's next state, or a
runtime fault. -/
theorem step_next_cases {s t : State} (h : step s = .next t) :
    s.status ≠ .running ∧ t = s ∨
    s.status = .running ∧
      (fetch s.program s.pc = none ∧ t = endRun s ∨
       ∃ I, fetch s.program s.pc = some I ∧
        ((∃ i, decode I s.program.labels = .op i ∧ exec i s = .next t) ∨
         (∃ k, decode I s.program.labels = .fault k ∧ t = s.raiseFault k I))) := by
  by_cases hr : s.status = .running
  · refine .inr ⟨hr, ?_⟩
    cases hf : fetch s.program s.pc with
    | none => rw [step_of_missing hr hf] at h; cases h; exact .inl ⟨rfl, rfl⟩
    | some I =>
      refine .inr ⟨I, rfl, ?_⟩
      cases hd : decode I s.program.labels with
      | op i => rw [step_of_op hr hf hd] at h; exact .inl ⟨i, rfl, h⟩
      | fault k => rw [step_of_fault hr hf hd] at h; cases h; exact .inr ⟨k, rfl, rfl⟩
      | refused r => cases r; rw [step_of_fetch hr hf, execute, hd] at h; cases h
  · rw [step_of_stopped hr] at h; cases h; exact .inl ⟨hr, rfl⟩

/-- What a fetch finds stands in the Program at the pc (30_encoding.md R73). -/
theorem fetch_some {P : Program} {pc : Word} {I : Record} (h : fetch P pc = some I) : I ∈ P.instrs ∧ I.address = pc := by
  refine ⟨List.mem_of_find?_eq_some h, ?_⟩
  simpa using List.find?_some h

theorem fetch_none_iff {P : Program} {pc : Word} : fetch P pc = none ↔ ∀ I ∈ P.instrs, I.address ≠ pc := by
  simp [fetch]

end Sys2Proof.Machine
end

