-- ==== Sys2Proof/Laws/Loader.lean ====
section
/-! SUPPORT. What the shared operations of the loader and of source lines give (30_encoding.md R74 to R79). -/

namespace Sys2Proof

/-- A separator-free text joins the token being read. -/
theorem splitTokens_token (t rest : Text) (cur : Token) (ht : ∀ c ∈ t, isSeparator c = false) :
    splitTokens (t ++ rest) cur = splitTokens rest (cur ++ t) := by
  induction t generalizing cur with
  | nil => simp
  | cons c t ih =>
    simp only [List.cons_append, splitTokens, ht c (by simp), Bool.false_eq_true, if_false]
    rw [ih _ fun d hd => ht d (by simp [hd])]
    simp

/-- A well-formed token is non-empty and holds no separator (R71). -/
theorem Token.wf_iff {t : Token} : Token.wf t = true ↔ t ≠ [] ∧ ∀ c ∈ t, isSeparator c = false := by
  simp [Token.wf]

/-- Every token that a text splits into is well-formed (R71, R79). -/
theorem splitTokens_wf (t : Text) (cur : Token) (hc : ∀ c ∈ cur, isSeparator c = false) :
    ∀ x ∈ splitTokens t cur, Token.wf x = true := by
  induction t generalizing cur with
  | nil =>
    intro x hx
    simp only [splitTokens] at hx
    split at hx
    · cases hx
    · simp at hx; subst hx; exact Token.wf_iff.mpr ⟨‹_›, hc⟩
  | cons c cs ih =>
    intro x hx
    simp only [splitTokens] at hx
    split at hx
    · split at hx
      · exact ih [] (by simp) x hx
      · rcases List.mem_cons.mp hx with rfl | hx
        · exact Token.wf_iff.mpr ⟨‹_›, hc⟩
        · exact ih [] (by simp) x hx
    · refine ih (cur ++ [c]) (fun d hd => ?_) x hx
      rcases List.mem_append.mp hd with hd | hd
      · exact hc d hd
      · simp at hd; subst hd; simpa using ‹¬ isSeparator d = true›

/-- Operand tokens written after a mnemonic split off again. -/
theorem splitTokens_joinOperands (ops : List Token) (h : ∀ t ∈ ops, Token.wf t = true) (first : Bool) (cur : Token)
    (hc : cur ≠ []) : splitTokens (joinOperands first ops) cur = cur :: ops := by
  have s1 : isSeparator ' ' = true := by decide
  have s2 : isSeparator ',' = true := by decide
  induction ops generalizing first cur with
  | nil => simp [joinOperands, splitTokens, hc]
  | cons t ts ih =>
    obtain ⟨h0, h1⟩ := Token.wf_iff.mp (h t (by simp))
    have key : splitTokens (t ++ joinOperands false ts) [] = t :: ts := by
      rw [splitTokens_token _ _ _ h1]
      exact ih (fun x hx => h x (by simp [hx])) _ _ (by simpa using h0)
    cases first <;> simp [joinOperands, splitTokens, hc, s1, s2, key]

/-- A mnemonic and operands written as a line split into themselves (R79, R95). -/
theorem tokenise_joinOperands {m : Token} {ops : List Token} (hm : Token.wf m = true)
    (h : ∀ t ∈ ops, Token.wf t = true) : tokenise (m ++ joinOperands true ops) = m :: ops := by
  obtain ⟨h0, h1⟩ := Token.wf_iff.mp hm
  unfold tokenise
  rw [splitTokens_token _ _ _ h1]
  exact splitTokens_joinOperands _ h _ _ (by simpa using h0)

/-- What `readDigits` accepts holds no separator. -/
theorem readDigits_chars {t : Text} {acc n : Nat} (h : readDigits t acc = some n) :
    ∀ c ∈ t, isSeparator c = false := by
  induction t generalizing acc with
  | nil => simp
  | cons c cs ih =>
    simp only [readDigits] at h
    split at h
    · rename_i d hd
      intro x hx
      rcases List.mem_cons.mp hx with rfl | hx
      · simp only [digitValue] at hd
        split at hd
        · rename_i hr
          have h0 : '0'.toNat = 48 := rfl
          have h9 : '9'.toNat = 57 := rfl
          rw [h0, h9] at hr
          have hc : x ≠ ',' := by rintro rfl; exact absurd hr (by decide)
          simp only [isSeparator, isSpace, Bool.or_eq_false_iff, beq_eq_false_iff_ne, Bool.and_eq_false_iff,
            decide_eq_false_iff_not]
          exact ⟨⟨by omega, by omega⟩, hc⟩
        · cases hd
      · exact ih h x hx
    · cases h

/-- A decimal literal is a well-formed token: non-empty, with no whitespace and no comma (R71, R87). -/
theorem literalValue_wf {t : Token} {v : Word} (h : literalValue t = some v) : Token.wf t = true := by
  rw [Token.wf_iff]
  have nat : ∀ {u : Text} {n : Nat}, readNat u = some n → u ≠ [] ∧ ∀ c ∈ u, isSeparator c = false := by
    intro u n hu
    unfold readNat at hu
    split at hu
    · cases hu
    · exact ⟨‹_›, readDigits_chars hu⟩
  cases t with
  | nil => simp [literalValue, readInt] at h
  | cons c cs =>
    refine ⟨by simp, ?_⟩
    unfold literalValue at h
    split at h
    · rename_i n hn
      simp only [readInt] at hn
      split at hn
      · rename_i hc
        split at hn
        · rename_i k hk
          intro x hx
          rcases List.mem_cons.mp hx with rfl | hx
          · subst hc; decide
          · exact (nat hk).2 x hx
        · cases hn
      · split at hn
        · exact (nat ‹_›).2
        · cases hn
    · cases h

end Sys2Proof

namespace Sys2Proof.Machine

/-- Trimming keeps a text with no whitespace at its ends (R74). -/
theorem trim_keep {t : Text} (h1 : ∀ c, t.head? = some c → isSpace c = false)
    (h2 : ∀ c, t.getLast? = some c → isSpace c = false) : trim t = t := by
  have keep : ∀ (u : Text), (∀ c, u.head? = some c → isSpace c = false) → u.dropWhile isSpace = u := by
    intro u hu
    cases u with
    | nil => rfl
    | cons c cs => simp [hu c rfl]
  unfold trim
  rw [keep t h1, keep t.reverse (by simpa using h2), List.reverse_reverse]

/-- A leading space is trimmed. -/
theorem trim_space (t : Text) : trim (' ' :: t) = trim t := by
  unfold trim
  rw [List.dropWhile_cons_of_pos (by decide)]

/-- Trimming leaves nothing exactly where there is nothing but whitespace (R74). -/
theorem trim_eq_nil_iff {t : Text} : trim t = [] ↔ ∀ c ∈ t, isSpace c = true := by
  unfold trim
  rw [List.reverse_eq_nil_iff, List.dropWhile_eq_nil_iff]
  constructor
  · intro h c hc
    by_contra hn
    have hne : t.dropWhile isSpace ≠ [] := fun e => hn (List.dropWhile_eq_nil_iff.mp e c hc)
    have hd := List.head_dropWhile_not (p := isSpace) hne
    rw [h _ (by simp)] at hd
    cases hd
  · intro h c hc
    rw [List.dropWhile_eq_nil_iff.mpr h] at hc
    cases hc

/-- Trailing whitespace is trimmed. -/
theorem trim_append_spaces {t pad : Text} (hp : ∀ c ∈ pad, isSpace c = true) (hne : t ≠ [])
    (h : ∀ c ∈ t, isSpace c = false) : trim (t ++ pad) = t := by
  have keep : trim t = t :=
    trim_keep (fun c hc => h c (List.mem_of_mem_head? hc)) (fun c hc => h c (List.mem_of_mem_getLast? hc))
  obtain ⟨c, cs, rfl⟩ := List.exists_cons_of_ne_nil hne
  have hc : ¬ isSpace c = true := by simp [h c (by simp)]
  unfold trim at keep ⊢
  rw [List.cons_append, List.dropWhile_cons_of_neg hc, ← List.cons_append, List.reverse_append,
    List.dropWhile_append_of_pos (by simpa using hp)]
  rwa [List.dropWhile_cons_of_neg hc] at keep

/-- The addresses of consecutive bytes, by index (R77). -/
theorem bytesAt_eq_mapIdx (a : Word) (bs : List Byte) :
    bytesAt a bs = bs.mapIdx fun k b => (a + BitVec.ofNat 32 k, b) := by
  induction bs generalizing a with
  | nil => rfl
  | cons b bs ih =>
    rw [bytesAt, ih, List.mapIdx_cons]
    simp only [BitVec.ofNat_eq_ofNat, BitVec.add_zero]
    congr 2
    funext k c
    congr 1
    rw [BitVec.add_assoc]
    congr 1
    apply BitVec.eq_of_toNat_eq
    simp; omega

/-- The addresses of consecutive bytes of the data image (R77). -/
theorem bytesAt_append (a : Word) (b c : List Byte) :
    bytesAt a (b ++ c) = bytesAt a b ++ bytesAt (a + BitVec.ofNat 32 b.length) c := by
  induction b generalizing a with
  | nil => simp [bytesAt]
  | cons x b ih =>
    simp only [List.cons_append, bytesAt, ih, List.length_cons]
    congr 3
    rw [BitVec.add_assoc]
    congr 1
    apply BitVec.eq_of_toNat_eq
    simp; omega

/-- After an image is written an address reads as the last byte written there, or as before (70_reset_and_hazards.md
R231). -/
theorem readByte_writeImage (image : List (Word × Byte)) (m : Memory) (a : Word) :
    readByte (writeImage m image) a =
      (((image.filter fun c => c.1 = a).getLast?).map Prod.snd).getD (readByte m a) := by
  induction image generalizing m with
  | nil => rfl
  | cons c rest ih =>
    show readByte (writeImage (writeByte m c.1 c.2) rest) a = _
    rw [ih, readByte_writeByte]
    by_cases h : c.1 = a
    · subst h
      rw [List.filter_cons_of_pos (by simp)]
      cases e : (rest.filter fun d => d.1 = c.1) with
      | nil => simp
      | cons d l => simp [List.getLast?_cons]
    · rw [List.filter_cons_of_neg (by simpa using h), if_neg (Ne.symm h)]

end Sys2Proof.Machine
end

