-- ==== Sys2Proof/Laws/PerInstr.lean ====
section
/-! SUPPORT. The per-instruction family EncodedTokens: the record an instruction encodes to has well-formed tokens
(30_encoding.md R71). -/

namespace Sys2Proof.Laws.EncodedTokens

/-- The encoded record of a well-formed instruction has a well-formed mnemonic and well-formed operand tokens. -/
def Statement (i : Instr) : Prop := i.wf = true → ∀ address line, (encode i address line).wf = true

/-- A record is well-formed where its mnemonic and each operand token are. -/
theorem of_tokens {i : Instr} (hm : Token.wf (encodeMnemonic i) = true)
    (ho : ∀ t ∈ encodeOperands i, Token.wf t = true) : Statement i := fun _ _ _ => by
  simp only [Record.wf, encode, hm, Bool.true_and, List.all_eq_true]
  exact ho

theorem add (a b c : Reg) : Statement (.add a b c) :=
  of_tokens rfl (by simp [encodeOperands, registerName_wf])

theorem addu (a b c : Reg) : Statement (.addu a b c) :=
  of_tokens rfl (by simp [encodeOperands, registerName_wf])

theorem sub (a b c : Reg) : Statement (.sub a b c) :=
  of_tokens rfl (by simp [encodeOperands, registerName_wf])

theorem subu (a b c : Reg) : Statement (.subu a b c) :=
  of_tokens rfl (by simp [encodeOperands, registerName_wf])

theorem addi (a b : Reg) (v : Word) : Statement (.addi a b v) :=
  of_tokens rfl (by simp [encodeOperands, registerName_wf, encodeVal_wf])

theorem addiu (a b : Reg) (v : Word) : Statement (.addiu a b v) :=
  of_tokens rfl (by simp [encodeOperands, registerName_wf, encodeVal_wf])

theorem mul (a b c : Reg) : Statement (.mul a b c) :=
  of_tokens rfl (by simp [encodeOperands, registerName_wf])

theorem and (a b c : Reg) : Statement (.and a b c) :=
  of_tokens rfl (by simp [encodeOperands, registerName_wf])

theorem or (a b c : Reg) : Statement (.or a b c) :=
  of_tokens rfl (by simp [encodeOperands, registerName_wf])

theorem xor (a b c : Reg) : Statement (.xor a b c) :=
  of_tokens rfl (by simp [encodeOperands, registerName_wf])

theorem sll (a b : Reg) (v : Word) : Statement (.sll a b v) :=
  of_tokens rfl (by simp [encodeOperands, registerName_wf, encodeVal_wf])

theorem srl (a b : Reg) (v : Word) : Statement (.srl a b v) :=
  of_tokens rfl (by simp [encodeOperands, registerName_wf, encodeVal_wf])

theorem slt (a b c : Reg) : Statement (.slt a b c) :=
  of_tokens rfl (by simp [encodeOperands, registerName_wf])

theorem slti (a b : Reg) (v : Word) : Statement (.slti a b v) :=
  of_tokens rfl (by simp [encodeOperands, registerName_wf, encodeVal_wf])

theorem lui (a : Reg) (v : Word) : Statement (.lui a v) :=
  of_tokens rfl (by simp [encodeOperands, registerName_wf, encodeVal_wf])

theorem li (a : Reg) (v : Word) : Statement (.li a v) :=
  of_tokens rfl (by simp [encodeOperands, registerName_wf, encodeVal_wf])

theorem la (a : Reg) (v : Word) : Statement (.la a v) :=
  of_tokens rfl (by simp [encodeOperands, registerName_wf, encodeVal_wf])

theorem move (a b : Reg) : Statement (.move a b) :=
  of_tokens rfl (by simp [encodeOperands, registerName_wf])

theorem lw (a : Reg) (v : Word) (b : Reg) : Statement (.lw a v b) :=
  of_tokens rfl (by simp [encodeOperands, registerName_wf, encodeMem_wf])

theorem sw (a : Reg) (v : Word) (b : Reg) : Statement (.sw a v b) :=
  of_tokens rfl (by simp [encodeOperands, registerName_wf, encodeMem_wf])

theorem lb (a : Reg) (v : Word) (b : Reg) : Statement (.lb a v b) :=
  of_tokens rfl (by simp [encodeOperands, registerName_wf, encodeMem_wf])

theorem sb (a : Reg) (v : Word) (b : Reg) : Statement (.sb a v b) :=
  of_tokens rfl (by simp [encodeOperands, registerName_wf, encodeMem_wf])

theorem beq (a b : Reg) (v : Word) : Statement (.beq a b v) :=
  of_tokens rfl (by simp [encodeOperands, registerName_wf, encodeVal_wf])

theorem bne (a b : Reg) (v : Word) : Statement (.bne a b v) :=
  of_tokens rfl (by simp [encodeOperands, registerName_wf, encodeVal_wf])

theorem j (v : Word) : Statement (.j v) :=
  of_tokens rfl (by simp [encodeOperands, encodeVal_wf])

theorem jal (v : Word) : Statement (.jal v) :=
  of_tokens rfl (by simp [encodeOperands, encodeVal_wf])

theorem jr (a : Reg) : Statement (.jr a) :=
  of_tokens rfl (by simp [encodeOperands, registerName_wf])

theorem syscall : Statement .syscall :=
  of_tokens rfl (by simp [encodeOperands])

theorem other (m : Token) (ops : List Token) : Statement (.other m ops) := fun h => by
  have hw := h
  simp only [Instr.wf, Bool.and_eq_true, List.all_eq_true] at hw
  exact of_tokens (i := .other m ops) hw.1.1 hw.1.2 h

end Sys2Proof.Laws.EncodedTokens
end

