-- ==== Sys2Proof/Tests/Slice0.lean ====
section
/-! SUPPORT. Tests: well-formedness refusals, one written-out record per instruction, the spec's test vectors
(95_test_vectors.md, ids in the comments), and a witness for the hypotheses of each statement. Every expected value is
the spec's. -/

namespace Sys2Proof.Tests

open Sys2Proof Sys2Proof.Machine Sys2Proof.Claims

/-- A reset machine with one instruction at `TEXT_BASE`, three labels and some registers set. -/
def machineWith (m : String) (ops : List String) (regs : List (Reg × Word)) : State :=
  regs.foldl (fun s p => s.setReg p.1 p.2)
    { State.reset with program :=
        ⟨[⟨0x00400000, m.toList, ops.map String.toList, 1⟩],
         [("L".toList, 0x00400040), ("msg".toList, 0x10010000), ("10".toList, 0x00400010)], []⟩ }

/-- The same with bytes of memory written. -/
def machineMem (m : String) (ops : List String) (regs : List (Reg × Word)) (bytes : List (Word × Byte)) : State :=
  { machineWith m ops regs with mem := writeImage [] bytes }

/-- The step gives a next state in which `p` holds. -/
def nextHas (s : State) (p : State → Bool) : Bool :=
  match step s with
  | .next t => p t
  | .fault _ => false
  | .refused _ => false

/-- The step takes a runtime fault at the pc and changes no register read, pc or output. -/
def faultsAtPc (s : State) : Bool :=
  nextHas s fun t => (currentFault t).any (fun f => f.1 == s.pc) && t.pc == s.pc && t.out == s.out && t.mem == s.mem

/-! ## Well-formedness refuses each ill-formed term (30_encoding.md R71, R72, R91) -/

theorem test_wf_empty_token : Token.wf [] = false := by decide
theorem test_wf_space_in_token : Token.wf "a b".toList = false := by decide
theorem test_wf_comma_in_token : Token.wf "a,b".toList = false := by decide
theorem test_wf_record_operand : Record.wf ⟨0, "add".toList, [[]], 1⟩ = false := by decide
theorem test_wf_record_mnemonic : Record.wf ⟨0, [], [], 1⟩ = false := by decide
theorem test_wf_other_table_mnemonic : Instr.wf (.other "add".toList []) = false := by decide
theorem test_wf_other_case_variant : Instr.wf (.other "Add".toList []) = false := by decide
theorem test_wf_other_operand : Instr.wf (.other "nop".toList ["a,b".toList]) = false := by decide
theorem test_wf_other_ok : Instr.wf (.other "nop".toList ["((".toList]) = true := by decide
theorem test_wf_program_first_address : Program.wf ⟨[⟨0x00400004, "add".toList, [], 1⟩], [], []⟩ = false := by decide
theorem test_wf_program_spacing :
    Program.wf ⟨[⟨0x00400000, "nop".toList, [], 1⟩, ⟨0x00400005, "nop".toList, [], 2⟩], [], []⟩ = false := by decide
theorem test_wf_program_record : Program.wf ⟨[⟨0x00400000, [], [], 1⟩], [], []⟩ = false := by decide
theorem test_wf_program_labels :
    Program.wf ⟨[], [("a".toList, 0), ("a".toList, 4)], []⟩ = false := by decide
theorem test_memory_wf_refuses_zero : ¬ Memory.wf [(3, 0)] := by decide
theorem test_memory_wf_refuses_order : ¬ Memory.wf [(3, 1), (2, 1)] := by decide

/-! ## Decoding: one record written out from the spec for every constructor (30_encoding.md R83, 10_state.md R23) -/

/-- The label table of the tests. -/
def labels : Labels := [("L".toList, 0x00400040), ("msg".toList, 0x10010000), ("10".toList, 0x00400010)]

theorem test_decode_add : decodeTokens labels "add".toList ["$t0".toList, "$t1".toList, "$t2".toList] = .op (.add 8 9 10) := by decide
theorem test_decode_addu : decodeTokens labels "addu".toList ["$s0".toList, "$a0".toList, "$v1".toList] = .op (.addu 16 4 3) := by decide
theorem test_decode_sub : decodeTokens labels "sub".toList ["$ra".toList, "$gp".toList, "$fp".toList] = .op (.sub 31 28 30) := by decide
theorem test_decode_subu : decodeTokens labels "subu".toList ["$at".toList, "$k0".toList, "$k1".toList] = .op (.subu 1 26 27) := by decide
theorem test_decode_addi : decodeTokens labels "addi".toList ["$t0".toList, "$t1".toList, "-1".toList] = .op (.addi 8 9 0xFFFFFFFF) := by decide
theorem test_decode_addiu : decodeTokens labels "addiu".toList ["$t8".toList, "$t9".toList, "4294967295".toList] = .op (.addiu 24 25 0xFFFFFFFF) := by decide
theorem test_decode_mul : decodeTokens labels "mul".toList ["$v0".toList, "$a0".toList, "$a0".toList] = .op (.mul 2 4 4) := by decide
theorem test_decode_and : decodeTokens labels "and".toList ["$s1".toList, "$s2".toList, "$s3".toList] = .op (.and 17 18 19) := by decide
theorem test_decode_or : decodeTokens labels "or".toList ["$s4".toList, "$s5".toList, "$s6".toList] = .op (.or 20 21 22) := by decide
theorem test_decode_xor : decodeTokens labels "xor".toList ["$s7".toList, "$a1".toList, "$a2".toList] = .op (.xor 23 5 6) := by decide
theorem test_decode_sll : decodeTokens labels "sll".toList ["$t2".toList, "$t1".toList, "31".toList] = .op (.sll 10 9 31) := by decide
theorem test_decode_srl : decodeTokens labels "srl".toList ["$t3".toList, "$t2".toList, "0".toList] = .op (.srl 11 10 0) := by decide
theorem test_decode_slt : decodeTokens labels "slt".toList ["$t4".toList, "$t5".toList, "$t6".toList] = .op (.slt 12 13 14) := by decide
theorem test_decode_slti : decodeTokens labels "slti".toList ["$t7".toList, "$a3".toList, "-5".toList] = .op (.slti 15 7 0xFFFFFFFB) := by decide
theorem test_decode_lui : decodeTokens labels "lui".toList ["$t0".toList, "4097".toList] = .op (.lui 8 4097) := by decide
theorem test_decode_li : decodeTokens labels "li".toList ["$t0".toList, "-2147483648".toList] = .op (.li 8 0x80000000) := by decide
theorem test_decode_la : decodeTokens labels "la".toList ["$a0".toList, "msg".toList] = .op (.la 4 0x10010000) := by decide
theorem test_decode_move : decodeTokens labels "move".toList ["$zero".toList, "$t0".toList] = .op (.move 0 8) := by decide
theorem test_decode_lw : decodeTokens labels "lw".toList ["$t0".toList, "-4($sp)".toList] = .op (.lw 8 0xFFFFFFFC 29) := by decide
theorem test_decode_sw : decodeTokens labels "sw".toList ["$t0".toList, "4($t1)".toList] = .op (.sw 8 4 9) := by decide
theorem test_decode_lb : decodeTokens labels "lb".toList ["$t2".toList, "0($t0)".toList] = .op (.lb 10 0 8) := by decide
theorem test_decode_sb : decodeTokens labels "sb".toList ["$t4".toList, "007($zero)".toList] = .op (.sb 12 7 0) := by decide
theorem test_decode_beq : decodeTokens labels "beq".toList ["$t0".toList, "$zero".toList, "L".toList] = .op (.beq 8 0 0x00400040) := by decide
theorem test_decode_bne : decodeTokens labels "bne".toList ["$t0".toList, "$t1".toList, "4194304".toList] = .op (.bne 8 9 0x00400000) := by decide
theorem test_decode_j : decodeTokens labels "j".toList ["L".toList] = .op (.j 0x00400040) := by decide
theorem test_decode_jal : decodeTokens labels "jal".toList ["L".toList] = .op (.jal 0x00400040) := by decide
theorem test_decode_jr : decodeTokens labels "jr".toList ["$ra".toList] = .op (.jr 31) := by decide
theorem test_decode_syscall : decodeTokens labels "syscall".toList [] = .op (.syscall) := by decide
theorem test_decode_other : decodeTokens labels "ori".toList ["5".toList] = .op (.other "ori".toList ["5".toList]) := by
  decide

-- D4v, D5v, D6v, D7v, V3, V4, V8, V9, V12, V13, M13, M14
theorem test_decode_case_variant : decodeTokens [] "ADD".toList [] = .refused .caseVariantMnemonic := by decide
theorem test_decode_missing_operand : decodeTokens [] "add".toList ["$t0".toList, "$t1".toList] = .fault .operandCount := by
  decide
theorem test_decode_extra_operand : decodeTokens [] "syscall".toList ["1".toList] = .fault .operandCount := by decide
theorem test_decode_first_failure :
    decodeTokens [] "addi".toList ["$t0".toList, "$x1".toList, "x".toList] = .fault .badRegister := by decide
theorem test_decode_literal_below_range : resolveVal [] "-2147483649".toList = .error .badValue := by decide
theorem test_decode_literal_above_range : resolveVal [] "4294967296".toList = .error .badValue := by decide
theorem test_decode_no_hexadecimal : resolveVal [] "0x10".toList = .error .badValue := by decide
theorem test_decode_no_plus : resolveVal [] "+1".toList = .error .badValue := by decide
theorem test_decode_undefined_label : resolveVal labels "nolabel".toList = .error .badValue := by decide
theorem test_decode_label_before_literal : resolveVal labels "10".toList = .ok 0x00400010 := by decide
theorem test_decode_no_dollar : resolveReg "t1".toList = .error .badRegister := by decide
theorem test_decode_numeric_register : resolveReg "$8".toList = .error .badRegister := by decide
theorem test_decode_no_offset : resolveMem "($t1)".toList = .error .badMemOperand := by decide
theorem test_decode_label_offset : resolveMem "lbl($t1)".toList = .error .badMemOperand := by decide
theorem test_decode_text_after_base : resolveMem "0($t1)x".toList = .error .badMemOperand := by decide

-- D8v: commas without spaces
theorem test_decode_line_commas : decodeLine [] "add $t0,$t1,$t2".toList = some (.op (.add 8 9 10)) := by decide

-- "jr $ra", one character a byte, first character lowest
theorem test_decode_table_word : decodeTableWord 48 0x61722420726A = some (.jr 31) := by decide

/-- The word's record runs as the first instruction after reset: `jr $ra` goes to the reset value of `$ra`. -/
theorem test_fetch_word_runs : nextHas (State.reset.withFetchWord 48 0x61722420726A) (fun t => t.pc == 0) = true := by
  decide

/-! ## Execution: the spec's vectors, at most two an instruction -/

-- A1
theorem test_add_overflow_wraps :
    nextHas (machineWith "add" ["$t0", "$t1", "$t2"] [(9, 0x7FFFFFFF), (10, 1)])
      (fun t => t.reg 8 == 0x80000000 && t.pc == 0x00400004) = true := by decide
-- A3
theorem test_add_same_register :
    nextHas (machineWith "add" ["$t0", "$t0", "$t0"] [(8, 0x40000000)])
      (fun t => t.reg 8 == 0x80000000 && t.pc == 0x00400004) = true := by decide
-- A4
theorem test_addu_wraps :
    nextHas (machineWith "addu" ["$t0", "$t1", "$t2"] [(9, 0xFFFFFFFF), (10, 1)])
      (fun t => t.reg 8 == 0 && t.pc == 0x00400004) = true := by decide
-- A6
theorem test_sub_borrows :
    nextHas (machineWith "sub" ["$t0", "$t1", "$t2"] [(9, 0), (10, 1)])
      (fun t => t.reg 8 == 0xFFFFFFFF && t.pc == 0x00400004) = true := by decide
-- A5
theorem test_sub_overflow_wraps :
    nextHas (machineWith "sub" ["$t0", "$t1", "$t2"] [(9, 0x80000000), (10, 1)])
      (fun t => t.reg 8 == 0x7FFFFFFF && t.pc == 0x00400004) = true := by decide
-- A7
theorem test_subu_wraps :
    nextHas (machineWith "subu" ["$t0", "$t1", "$t2"] [(9, 0), (10, 0x80000000)])
      (fun t => t.reg 8 == 0x80000000 && t.pc == 0x00400004) = true := by decide
-- A9
theorem test_addi_wide_immediate :
    nextHas (machineWith "addi" ["$t0", "$t1", "100000"] [(9, 0)])
      (fun t => t.reg 8 == 0x000186A0 && t.pc == 0x00400004) = true := by decide
-- A10
theorem test_addi_unsigned_literal :
    nextHas (machineWith "addi" ["$t0", "$t1", "4294967295"] [(9, 5)])
      (fun t => t.reg 8 == 4 && t.pc == 0x00400004) = true := by decide
-- A12
theorem test_addiu_label :
    nextHas (machineWith "addiu" ["$t0", "$t1", "msg"] [(9, 4)])
      (fun t => t.reg 8 == 0x10010004 && t.pc == 0x00400004) = true := by decide
-- A17
theorem test_mul_negative :
    nextHas (machineWith "mul" ["$t0", "$t1", "$t2"] [(9, 0xFFFFFFFD), (10, 7)])
      (fun t => t.reg 8 == 0xFFFFFFEB && t.pc == 0x00400004) = true := by decide
-- A13
theorem test_mul_drops_high :
    nextHas (machineWith "mul" ["$t0", "$t1", "$t2"] [(9, 0x00010000), (10, 0x00010000)])
      (fun t => t.reg 8 == 0 && t.pc == 0x00400004) = true := by decide
-- A18
theorem test_and_bits :
    nextHas (machineWith "and" ["$t0", "$t1", "$t2"] [(9, 0xF0F0F0F0), (10, 0x0FF00FF0)])
      (fun t => t.reg 8 == 0x00F000F0 && t.pc == 0x00400004) = true := by decide
-- A19
theorem test_or_bits :
    nextHas (machineWith "or" ["$t0", "$t1", "$t2"] [(9, 0xF0F0F0F0), (10, 0x0FF00FF0)])
      (fun t => t.reg 8 == 0xFFF0FFF0 && t.pc == 0x00400004) = true := by decide
-- A20
theorem test_xor_bits :
    nextHas (machineWith "xor" ["$t0", "$t1", "$t2"] [(9, 0xF0F0F0F0), (10, 0x0FF00FF0)])
      (fun t => t.reg 8 == 0xFF00FF00 && t.pc == 0x00400004) = true := by decide
-- A23
theorem test_sll_by_31 :
    nextHas (machineWith "sll" ["$t0", "$t1", "31"] [(9, 3)])
      (fun t => t.reg 8 == 0x80000000 && t.pc == 0x00400004) = true := by decide
-- A27
theorem test_srl_zero_fill :
    nextHas (machineWith "srl" ["$t0", "$t1", "31"] [(9, 0x80000000)])
      (fun t => t.reg 8 == 1 && t.pc == 0x00400004) = true := by decide
-- A30
theorem test_slt_signed :
    nextHas (machineWith "slt" ["$t0", "$t1", "$t2"] [(9, 0x7FFFFFFF), (10, 0x80000000)])
      (fun t => t.reg 8 == 0 && t.pc == 0x00400004) = true := by decide
-- A29
theorem test_slt_negative :
    nextHas (machineWith "slt" ["$t0", "$t1", "$t2"] [(9, 0xFFFFFFFF), (10, 0)])
      (fun t => t.reg 8 == 1 && t.pc == 0x00400004) = true := by decide
-- A33
theorem test_slti_signed_immediate :
    nextHas (machineWith "slti" ["$t0", "$t1", "4294967295"] [(9, 0)])
      (fun t => t.reg 8 == 0 && t.pc == 0x00400004) = true := by decide
-- A32
theorem test_slti_negative :
    nextHas (machineWith "slti" ["$t0", "$t1", "0"] [(9, 0x80000000)])
      (fun t => t.reg 8 == 1 && t.pc == 0x00400004) = true := by decide
-- A35
theorem test_lui_base :
    nextHas (machineWith "lui" ["$t0", "4097"] [])
      (fun t => t.reg 8 == 0x10010000 && t.pc == 0x00400004) = true := by decide
-- A37
theorem test_lui_drops_high :
    nextHas (machineWith "lui" ["$t0", "65536"] [(8, 7)])
      (fun t => t.reg 8 == 0 && t.pc == 0x00400004) = true := by decide
-- V1
theorem test_li_negative :
    nextHas (machineWith "li" ["$t0", "-1"] [])
      (fun t => t.reg 8 == 0xFFFFFFFF && t.pc == 0x00400004) = true := by decide
-- V9
theorem test_li_label :
    nextHas (machineWith "li" ["$t0", "10"] [])
      (fun t => t.reg 8 == 0x00400010 && t.pc == 0x00400004) = true := by decide
-- V6
theorem test_la_label :
    nextHas (machineWith "la" ["$a0", "msg"] [])
      (fun t => t.reg 4 == 0x10010000 && t.pc == 0x00400004) = true := by decide
-- V10
theorem test_move_copies :
    nextHas (machineWith "move" ["$t0", "$t1"] [(9, 0x12345678)])
      (fun t => t.reg 8 == 0x12345678 && t.pc == 0x00400004) = true := by decide
-- V11
theorem test_move_to_zero :
    nextHas (machineWith "move" ["$zero", "$t1"] [(9, 5)])
      (fun t => t.reg 0 == 0 && t.pc == 0x00400004) = true := by decide
-- M3
theorem test_lw_unaligned :
    nextHas (machineMem "lw" ["$t0", "1($t1)"] [(9, 0x10010000)] [(0x10010000, 0x12), (0x10010001, 0x34), (0x10010002, 0x56), (0x10010003, 0x78), (0x10010004, 0x9A)])
      (fun t => t.reg 8 == 0x3456789A && t.pc == 0x00400004) = true := by decide
-- M5
theorem test_lw_wraps :
    nextHas (machineMem "lw" ["$t0", "0($t1)"] [(9, 0xFFFFFFFE)] [(0xFFFFFFFE, 0x11), (0xFFFFFFFF, 0x22), (0, 0x33), (1, 0x44)])
      (fun t => t.reg 8 == 0x11223344 && t.pc == 0x00400004) = true := by decide
-- M9
theorem test_lb_sign_extends :
    nextHas (machineMem "lb" ["$t0", "0($t1)"] [(9, 0x10010000)] [(0x10010000, 0x80)])
      (fun t => t.reg 8 == 0xFFFFFF80 && t.pc == 0x00400004) = true := by decide
-- M10
theorem test_lb_positive :
    nextHas (machineMem "lb" ["$t0", "0($t1)"] [(9, 0x10010000)] [(0x10010000, 0x7F)])
      (fun t => t.reg 8 == 0x0000007F && t.pc == 0x00400004) = true := by decide
-- M6
theorem test_sw_big_endian :
    nextHas (machineWith "sw" ["$t0", "4($t1)"] [(8, 0xCAFEBABE), (9, 0x10010000)])
      (fun t => t.mem == [(0x10010004, 0xCA), (0x10010005, 0xFE), (0x10010006, 0xBA), (0x10010007, 0xBE)] && t.pc == 0x00400004) = true := by decide
-- M7
theorem test_sw_zeroes :
    nextHas (machineMem "sw" ["$zero", "0($t1)"] [(9, 0x10010000)] [(0x10010000, 0xFF), (0x10010001, 0xFF), (0x10010002, 0xFF), (0x10010003, 0xFF)])
      (fun t => t.mem == []) = true := by decide
-- M12
theorem test_sb_low_byte :
    nextHas (machineMem "sb" ["$t0", "3($t1)"] [(8, 0x12345678), (9, 0x10010000)] [(0x10010002, 0xCC), (0x10010003, 0xDD)])
      (fun t => t.mem == [(0x10010002, 0xCC), (0x10010003, 0x78)] && t.pc == 0x00400004) = true := by decide
-- B1
theorem test_beq_taken :
    nextHas (machineWith "beq" ["$t0", "$t1", "L"] [(8, 5), (9, 5)])
      (fun t => t.pc == 0x00400040) = true := by decide
-- B2
theorem test_beq_not_taken :
    nextHas (machineWith "beq" ["$t0", "$t1", "L"] [(8, 5), (9, 6)])
      (fun t => t.pc == 0x00400004) = true := by decide
-- B5
theorem test_bne_taken :
    nextHas (machineWith "bne" ["$t0", "$t1", "4194304"] [(8, 0x80000000), (9, 0)])
      (fun t => t.pc == 0x00400000) = true := by decide
-- B6
theorem test_bne_not_taken :
    nextHas (machineWith "bne" ["$t0", "$t0", "L"] [(8, 1)])
      (fun t => t.pc == 0x00400004) = true := by decide
-- B7
theorem test_j_label :
    nextHas (machineWith "j" ["L"] [])
      (fun t => t.pc == 0x00400040) = true := by decide
-- B9
theorem test_jal_links :
    nextHas (machineWith "jal" ["L"] [])
      (fun t => t.pc == 0x00400040 && t.reg 31 == 0x00400004) = true := by decide
-- B12
theorem test_jr_unaligned :
    nextHas (machineWith "jr" ["$t0"] [(8, 0x00400001)])
      (fun t => t.pc == 0x00400001 && t.status == .running) = true := by decide
-- S3
theorem test_syscall_print_int_min :
    nextHas (machineWith "syscall" [] [(2, 1), (4, 0x80000000)])
      (fun t => t.out == [45, 50, 49, 52, 55, 52, 56, 51, 54, 52, 56] && t.pc == 0x00400004) = true := by decide
-- S7
theorem test_syscall_print_string_wraps :
    nextHas (machineMem "syscall" [] [(2, 4), (4, 0xFFFFFFFF)] [(0xFFFFFFFF, 0x41), (0, 0x42)])
      (fun t => t.out == [0x41, 0x42]) = true := by decide
-- S8
theorem test_syscall_exit :
    nextHas (machineWith "syscall" [] [(2, 10)])
      (fun t => t.status == .exited && t.pc == 0x00400004) = true := by decide
-- S14
theorem test_syscall_full_code :
    nextHas (machineWith "syscall" [] [(2, 0x0000010A)])
      (fun t => t.status == .running && t.out == [] && t.pc == 0x00400004) = true := by decide
-- S9
theorem test_syscall_print_char :
    nextHas (machineWith "syscall" [] [(2, 11), (4, 0x00000141)])
      (fun t => t.out == [0x41]) = true := by decide
-- D2v
theorem test_other_only_advances :
    nextHas (machineWith "ori" ["$t0", "$t0", "5"] [(8, 2)])
      (fun t => t.reg 8 == 2 && t.pc == 0x00400004) = true := by decide

-- A24, A25
theorem test_sll_out_of_range : exec (.sll 8 9 32) (machineWith "nop" [] []) = .refused .shiftOutOfRange := rfl
theorem test_srl_out_of_range : exec (.srl 8 9 0xFFFFFFFF) (machineWith "nop" [] []) = .refused .shiftOutOfRange := rfl

-- B3, M13, A11: nothing but the status changes
theorem test_fault_branch_not_taken : faultsAtPc (machineWith "beq" ["$t0", "$t1", "nowhere"] [(8, 5), (9, 6)]) = true := by
  decide
theorem test_fault_memory_operand : faultsAtPc (machineWith "lw" ["$t0", "($t1)"] []) = true := by decide

-- F3: no Program loaded
theorem test_no_program_ends : nextHas State.reset (fun t => t.status == .ended && t.pc == 0x00400000) = true := by decide

/-! ## The loader (30_encoding.md R74 to R82) -/

/-- What the loader refuses or reports, by a name. -/
def loaderAnswer (source : String) : Option (Option LoaderRefusal) :=
  match assemble source.toList with
  | .ok _ => none
  | .error (.error _) => some none
  | .error (.refused r) => some (some r)

-- F5, R77: a missing quote
theorem test_loader_missing_quote : loaderAnswer ".data\n.asciiz \"abc" = some none := by decide
-- R77: one quote that is not at the start is a missing quote; text before a whole string is refused
theorem test_loader_stray_quote : loaderAnswer ".data\n.ascii abc\"" = some none := by decide
theorem test_loader_text_before_string : loaderAnswer ".data\n.ascii a\"b\"" = some (some .textAroundString) := by decide
-- R77: the two escapes write 10 and 9
theorem test_loader_escapes :
    assemble ".data\n.ascii \"a\\n\\t\"".toList =
      .ok ⟨[], [], [(0x10010000, 97), (0x10010001, 10), (0x10010002, 9)]⟩ := by decide
theorem test_loader_escape : loaderAnswer ".data\n.ascii \"a\\q\"" = some (some .stringEscape) := by decide
theorem test_loader_hash_in_quotes : loaderAnswer ".data\n.ascii \"a#b\"" = some (some .escapedHash) := by decide
theorem test_loader_word_list : loaderAnswer ".data\n.word 1, 2" = some (some .wordList) := by decide
theorem test_loader_word_name : loaderAnswer ".data\n.word abc" = some none := by decide
theorem test_loader_duplicate_label : loaderAnswer "a:\na:" = some (some .duplicateLabel) := by decide
theorem test_loader_text_directive : loaderAnswer ".globl main" = some (some .textDirective) := by decide
theorem test_loader_section_argument : loaderAnswer ".data 5" = some (some .sectionArgument) := by decide
theorem test_loader_bad_label : loaderAnswer "a b: nop" = some (some .badLabel) := by decide

-- P5: labels, an unaligned .word after a string, big-endian bytes
theorem test_loader_data_image :
    assemble "  .data # image\nmsg: .asciiz \"Hi\"\nval: .word -2\n\n.text\nmain: jr $t1".toList =
      .ok ⟨[⟨0x00400000, "jr".toList, ["$t1".toList], 6⟩],
           [("msg".toList, 0x10010000), ("val".toList, 0x10010003), ("main".toList, 0x00400000)],
           [(0x10010000, 0x48), (0x10010001, 0x69), (0x10010002, 0)] ++
           [(0x10010003, 0xFF), (0x10010004, 0xFF), (0x10010005, 0xFF), (0x10010006, 0xFE)]⟩ := by decide

/-! ## Witnesses: concrete states and operands that meet the hypotheses of each statement -/

theorem noReg_t1 : NamesNoReg "t1".toList := by unfold NamesNoReg; decide
theorem noReg_8 : NamesNoReg "$8".toList := by unfold NamesNoReg; decide
theorem names_t0 : NamesReg "$t0".toList 8 := by unfold NamesReg; decide
theorem names_zero : NamesReg "$zero".toList 0 := by unfold NamesReg; decide
theorem names_ra : NamesReg "$ra".toList 31 := by unfold NamesReg; decide
theorem hasValue_label : HasValue labels "10".toList 0x00400010 := .inl (by decide)
theorem hasValue_least : HasValue labels "-2147483648".toList 0x80000000 := .inr (by decide)
theorem hasValue_greatest : HasValue labels "4294967295".toList 0xFFFFFFFF := .inr (by decide)
theorem hasNoValue_above : HasNoValue labels "4294967296".toList := by unfold HasNoValue; decide
theorem memoryToken_sp : IsMemoryToken "-4($sp)".toList 0xFFFFFFFC 29 := ⟨"-4".toList, by decide, by decide⟩

/-- No literal stands before the parenthesis, so the token has no memory form. -/
theorem noMemoryToken : ∀ off base, ¬ IsMemoryToken "($t1)".toList off base := by
  rintro off base ⟨lit, hl, ht⟩
  cases lit with
  | nil => simp [literalValue, readInt] at hl
  | cons c cs =>
    have hc : c = '(' := by
      have := congrArg List.head? ht
      simpa using this.symm
    subst hc
    have : readNat ('(' :: cs) = none := by
      simp only [readNat, readDigits, show digitValue '(' = none by decide]
      rfl
    simp [literalValue, readInt, this] at hl

theorem witness_DecodeOfEncodeIsTheInstruction :
    (Instr.lw 31 0x80000000 29).wf = true ∧ ∀ p ∈ [("main".toList, (0x00400000 : Word))], literalValue p.1 = none := by
  decide
theorem witness_SourceLineDecodesToTheInstruction :
    (Instr.other "nop".toList []).wf = true ∧ ∀ p ∈ ([] : Labels), literalValue p.1 = none := by decide
theorem witness_RegisterTokensAreTheThirtyTwoNames : NamesReg "$zero".toList 0 ∧ NamesReg "$ra".toList 31 ∧
    NamesNoReg "$8".toList := ⟨names_zero, names_ra, noReg_8⟩
theorem witness_ValueTokensResolveLabelFirst :
    lookupToken "10".toList labels = some 0x00400010 ∧
    ("11".toList ∉ labels.map Prod.fst ∧ literalValue "11".toList = some 11) ∧
    ("x".toList ∉ labels.map Prod.fst ∧ literalValue "x".toList = none) := by decide
theorem witness_MemoryTokensResolve :
    IsMemoryToken "-4($sp)".toList 0xFFFFFFFC 29 ∧ ∀ off base, ¬ IsMemoryToken "($t1)".toList off base :=
  ⟨memoryToken_sp, noMemoryToken⟩
theorem witness_OperandCountIsCheckedFirst : ("jr", 1) ∈ countTable ∧ ([] : List Token).length ≠ 1 := by decide
theorem witness_FirstFailingOperandIsReported :
    NamesNoReg "t1".toList ∧ NamesReg "$t0".toList 8 ∧ HasNoValue labels "4294967296".toList ∧
    ∀ off base, ¬ IsMemoryToken "($t1)".toList off base := ⟨noReg_t1, names_t0, hasNoValue_above, noMemoryToken⟩
theorem witness_UnrecognisedMnemonicOnlyAdvances : ¬ InTable "nop".toList ∧ ¬ InTable (asciiLower "nop".toList) := by
  unfold InTable; decide

/-- The record of `machineWith` as `fetch` finds it. -/
theorem fetch_machineWith_syscall :
    fetch (machineWith "syscall" [] [(2, 10)]).program (machineWith "syscall" [] [(2, 10)]).pc =
      some ⟨0x00400000, "syscall".toList, [], 1⟩ := by decide

theorem witness_CaseVariantMnemonicIsRefused :
    (machineWith "Lw" [] []).status = .running ∧
    fetch (machineWith "Lw" [] []).program (machineWith "Lw" [] []).pc = some ⟨0x00400000, "Lw".toList, [], 1⟩ ∧
    ¬ InTable "Lw".toList ∧ InTable (asciiLower "Lw".toList) := by unfold InTable; decide
theorem witness_StepRunsTheDecodedInstruction :
    (machineWith "syscall" [] [(2, 10)]).status = .running ∧
    fetch (machineWith "syscall" [] [(2, 10)]).program (machineWith "syscall" [] [(2, 10)]).pc =
      some ⟨0x00400000, "syscall".toList, [], 1⟩ ∧
    decode ⟨0x00400000, "syscall".toList, [], 1⟩ (machineWith "syscall" [] [(2, 10)]).program.labels = .op .syscall :=
  ⟨by decide, fetch_machineWith_syscall, by decide⟩
theorem witness_StepOfStoppedAndOfMissingInstruction :
    (State.reset.setStatus .exited).status ≠ .running ∧
    State.reset.status = .running ∧ ∀ I ∈ State.reset.program.instrs, I.address ≠ State.reset.pc := by decide
theorem witness_FetchSelectsTheUniqueInstruction :
    (machineWith "nop" [] []).program.wf = true ∧
    (⟨0x00400000, "nop".toList, [], 1⟩ : Record) ∈ (machineWith "nop" [] []).program.instrs := by decide
theorem witness_RuntimeFaultCommitsNothing :
    (machineWith "jr" [] []).status = .running ∧
    fetch (machineWith "jr" [] []).program (machineWith "jr" [] []).pc = some ⟨0x00400000, "jr".toList, [], 1⟩ ∧
    decode ⟨0x00400000, "jr".toList, [], 1⟩ (machineWith "jr" [] []).program.labels = .fault .operandCount := by decide

/-- The Program of the source text `jr $ra`. -/
def oneLine : Program := ⟨[⟨0x00400000, "jr".toList, ["$ra".toList], 1⟩], [], []⟩
theorem assemble_oneLine : assemble "jr $ra".toList = .ok oneLine := by decide
theorem oneLine_wf : oneLine.wf = true := by decide
theorem assembleOp_oneLine :
    assembleOp "jr $ra".toList State.reset = .installed (installProgram State.reset oneLine) := by
  unfold assembleOp; rw [assemble_oneLine]; rfl

theorem witness_FaultedUntilResetOrLoad :
    FaultedAt (State.reset.setStatus (.faulted 0x00400008 [])) 0x00400008 ∧
    assemble "jr $ra".toList = .ok oneLine ∧ oneLine.wf = true ∧
    ∃ e t, assembleOp ".data\n.word abc".toList (State.reset.setStatus (.faulted 0x00400008 [])) = .failed e t :=
  ⟨⟨[], rfl⟩, assemble_oneLine, oneLine_wf, _, _, rfl⟩
theorem witness_StatusTransitions :
    (∃ t, step State.reset = .next t ∧ t.status ≠ State.reset.status) ∧
    (State.reset.setStatus .ended).status ≠ .running ∧
    (AboutToRun (machineWith "syscall" [] [(2, 10)]) .syscall ∧ (machineWith "syscall" [] [(2, 10)]).reg Config.v0 = 10) ∧
    (State.reset.status = .running ∧ ∀ I ∈ State.reset.program.instrs, I.address ≠ State.reset.pc) ∧
    ((machineWith "jr" [] []).status = .running ∧
      fetch (machineWith "jr" [] []).program (machineWith "jr" [] []).pc = some ⟨0x00400000, "jr".toList, [], 1⟩ ∧
      decode ⟨0x00400000, "jr".toList, [], 1⟩ (machineWith "jr" [] []).program.labels = .fault .operandCount) ∧
    (∃ e t, assembleOp ".data\n.word abc".toList State.reset = .failed e t) ∧
    ∃ t, assembleOp "jr $ra".toList State.reset = .installed t :=
  ⟨⟨_, rfl, by decide⟩, by decide, ⟨⟨by decide, _, fetch_machineWith_syscall, by decide⟩, by decide⟩, by decide,
   by decide, ⟨_, _, rfl⟩, ⟨_, assembleOp_oneLine⟩⟩
theorem witness_StepRefusesOnlyWhatTheSpecRefuses :
    (∃ s, step s = .refused .caseVariantMnemonic) ∧ ∃ s, step s = .refused .shiftOutOfRange :=
  ⟨⟨machineWith "Lw" [] [], rfl⟩, ⟨machineWith "sll" ["$t0", "$t1", "32"] [], rfl⟩⟩
theorem witness_StepKeepsTheInvariant : StateInv State.reset ∧ ∃ t, step State.reset = .next t :=
  ⟨⟨by decide, by decide, by decide⟩, _, rfl⟩
theorem witness_ResetAndLoadMeetTheInvariant : oneLine.wf = true := oneLine_wf
theorem witness_ProgramIsImmutable :
    (∃ t, step State.reset = .next t) ∧ (∃ e t, assembleOp ".data\n.word abc".toList State.reset = .failed e t) ∧
    ∃ t, assembleOp "jr $ra".toList State.reset = .installed t :=
  ⟨⟨_, rfl⟩, ⟨_, _, rfl⟩, ⟨_, assembleOp_oneLine⟩⟩
theorem witness_OutputOnlyGrows :
    ∃ t, step (machineWith "syscall" [] [(2, 11), (4, 65)]) = .next t ∧ t.out ≠ [] := ⟨_, rfl, by decide⟩
theorem witness_MemoryChangesOnlyWhereStored :
    ∃ t, step (machineWith "sb" ["$t0", "-1($zero)"] [(8, 1)]) = .next t ∧
      readByte t.mem 0xFFFFFFFF ≠ readByte (machineWith "sb" ["$t0", "-1($zero)"] [(8, 1)]).mem 0xFFFFFFFF :=
  ⟨_, rfl, by decide⟩
theorem witness_OnlyTheDestinationRegisterChanges :
    (∃ t, exec (.jal 0) State.reset = .next t) ∧ destination (.jal 0) ≠ some 30 := ⟨⟨_, rfl⟩, by decide⟩
theorem witness_PcAfterEveryInstruction : ∃ t, exec (.j 0xFFFFFFFF) State.reset = .next t := ⟨_, rfl⟩
theorem witness_RegisterZeroIsHardwired :
    ∃ t, exec (.li 0 5) State.reset = .next t ∧ destination (.li 0 5) = some 0 := ⟨_, rfl, rfl⟩

/-- The operand tokens that the form statements take, each at a boundary (RRR, RRV, RV, RR, RM, T, R). -/
theorem witness_forms :
    NamesReg "$zero".toList 0 ∧ NamesReg "$ra".toList 31 ∧ NamesNoReg "$8".toList ∧
    HasValue labels "10".toList 0x00400010 ∧ HasValue labels "-2147483648".toList 0x80000000 ∧
    HasValue labels "4294967295".toList 0xFFFFFFFF ∧ HasNoValue labels "4294967296".toList ∧
    IsMemoryToken "-4($sp)".toList 0xFFFFFFFC 29 ∧ (∀ off base, ¬ IsMemoryToken "($t1)".toList off base) ∧
    ([] : List Token).length ≠ 3 ∧ ([] : List Token).length ≠ 2 ∧ ([] : List Token).length ≠ 1 ∧ ([[]] : List Token).length ≠ 0 :=
  ⟨names_zero, names_ra, noReg_8, hasValue_label, hasValue_least, hasValue_greatest, hasNoValue_above, memoryToken_sp,
   noMemoryToken, by decide, by decide, by decide, by decide⟩
theorem witness_AddAndAdduWriteTheWrappedSum : NamesReg "$t0".toList 8 ∧ NamesReg "$ra".toList 31 ∧ NamesNoReg "t1".toList :=
  ⟨names_t0, names_ra, noReg_t1⟩
theorem witness_SubAndSubuWriteTheWrappedDifference : NamesReg "$t0".toList 8 ∧ NamesReg "$ra".toList 31 ∧ NamesNoReg "t1".toList :=
  ⟨names_t0, names_ra, noReg_t1⟩
theorem witness_MulWritesTheLowProduct : NamesReg "$t0".toList 8 ∧ NamesReg "$ra".toList 31 ∧ NamesNoReg "t1".toList :=
  ⟨names_t0, names_ra, noReg_t1⟩
theorem witness_LogicWorksBitByBit : NamesReg "$t0".toList 8 ∧ NamesReg "$ra".toList 31 ∧ NamesNoReg "t1".toList :=
  ⟨names_t0, names_ra, noReg_t1⟩
theorem witness_AddiAndAddiuWriteTheWrappedSum :
    NamesReg "$t0".toList 8 ∧ HasValue labels "4294967295".toList 0xFFFFFFFF ∧ HasNoValue labels "4294967296".toList ∧
    NamesNoReg "t1".toList := ⟨names_t0, hasValue_greatest, hasNoValue_above, noReg_t1⟩
theorem witness_ShiftsInRangeAndRefusedAbove : (31 : Word).toNat ≤ 31 ∧ 31 < (32 : Word).toNat ∧
    HasNoValue labels "4294967296".toList := ⟨by decide, by decide, hasNoValue_above⟩
theorem witness_SetLessThanIsSigned :
    NamesReg "$t0".toList 8 ∧ HasValue labels "-2147483648".toList 0x80000000 ∧ HasNoValue labels "4294967296".toList :=
  ⟨names_t0, hasValue_least, hasNoValue_above⟩
theorem witness_LuiShiftsSixteenLeft :
    NamesReg "$t0".toList 8 ∧ HasValue labels "4294967295".toList 0xFFFFFFFF ∧ HasNoValue labels "4294967296".toList :=
  ⟨names_t0, hasValue_greatest, hasNoValue_above⟩
theorem witness_MovesWriteTheirOperand :
    NamesReg "$zero".toList 0 ∧ HasValue labels "10".toList 0x00400010 ∧ HasNoValue labels "4294967296".toList :=
  ⟨names_zero, hasValue_label, hasNoValue_above⟩
theorem witness_LoadsReadTheEffectiveAddress :
    NamesReg "$zero".toList 0 ∧ IsMemoryToken "-4($sp)".toList 0xFFFFFFFC 29 ∧
    ∀ off base, ¬ IsMemoryToken "($t1)".toList off base := ⟨names_zero, memoryToken_sp, noMemoryToken⟩
theorem witness_SwStoresTheWordBigEndian :
    NamesReg "$t0".toList 8 ∧ IsMemoryToken "-4($sp)".toList 0xFFFFFFFC 29 := ⟨names_t0, memoryToken_sp⟩
theorem witness_SbStoresTheLowByte :
    NamesReg "$t0".toList 8 ∧ IsMemoryToken "-4($sp)".toList 0xFFFFFFFC 29 := ⟨names_t0, memoryToken_sp⟩
theorem witness_WordAndByteViewsAgree : 3 < 4 ∧ wordAt 0xFFFFFFFD 0 1 = none ∧ wordAt 0xFFFFFFFD 0 0 ≠ none := by decide
theorem witness_BranchesCompareAllBits :
    NamesReg "$zero".toList 0 ∧ HasValue labels "10".toList 0x00400010 ∧ HasNoValue labels "4294967296".toList :=
  ⟨names_zero, hasValue_label, hasNoValue_above⟩
theorem witness_JumpsGoToTheirTarget :
    NamesReg "$ra".toList 31 ∧ HasValue labels "10".toList 0x00400010 ∧ NamesNoReg "$8".toList :=
  ⟨names_ra, hasValue_label, noReg_8⟩
theorem witness_SyscallAdvancesForEveryService : [("1".toList : Token)].length ≠ 0 := by decide
theorem witness_PrintIntAppendsTheSignedDecimal : (machineWith "syscall" [] [(2, 1)]).reg 2 = 1 := by decide
theorem witness_PrintStringAppendsUpToZeroOrCap : (machineWith "syscall" [] [(2, 4)]).reg 2 = 4 := by decide
theorem witness_ExitStopsTheMachine : (machineWith "syscall" [] [(2, 10)]).reg 2 = 10 := by decide
theorem witness_PrintCharAndOtherServices :
    (machineWith "syscall" [] [(2, 11)]).reg Config.v0 = 11 ∧
    (machineWith "syscall" [] [(2, 0x10A)]).reg Config.v0 ≠ 1 ∧ (machineWith "syscall" [] [(2, 0x10A)]).reg Config.v0 ≠ 4 ∧
    (machineWith "syscall" [] [(2, 0x10A)]).reg Config.v0 ≠ 10 ∧ (machineWith "syscall" [] [(2, 0x10A)]).reg Config.v0 ≠ 11 := by decide
theorem witness_AssembleInstallsTheProgram : assemble "jr $ra".toList = .ok oneLine ∧ oneLine.wf = true :=
  ⟨assemble_oneLine, oneLine_wf⟩
theorem witness_FailedAssembleChangesNothing :
    ∃ e, assemble ".data\n.word abc".toList = .error (.error e) ∧
      ∃ t, assembleOp ".data\n.word abc".toList State.reset = .failed e t := ⟨_, rfl, _, rfl⟩
theorem witness_AssembledProgramIsWellFormed :
    assemble "jr $ra".toList = .ok oneLine ∧ oneLine.instrs.length ≤ 2 ^ 30 - 2 ^ 20 := ⟨assemble_oneLine, by decide⟩
theorem witness_TextLineRecordsOneInstruction :
    Token.wf "add".toList = true ∧ (∀ t ∈ ["foo".toList, "10:(".toList], Token.wf t = true) ∧
    "add".toList.head? ≠ some '.' ∧ loaderStart.sect = .text := by decide
/-- The data section, with nothing loaded. -/
def dataStart : LoaderState := ⟨.data, 0, 0xFFFFFFFF, [], [("main".toList, 0)], []⟩
theorem witness_StringDirectiveWritesItsBytes :
    dataStart.sect = .data ∧ ∀ p ∈ [(['a'], 97), (['\\', 'n'], 10), (['\\', 't'], 9)], StringPiece p :=
  ⟨rfl, by
    intro p hp
    simp only [List.mem_cons, List.not_mem_nil, or_false] at hp
    rcases hp with rfl | rfl | rfl
    · exact .inl ⟨'a', by decide, by decide, rfl⟩
    · exact .inr (.inl rfl)
    · exact .inr (.inr rfl)⟩
theorem witness_WordDirectiveWritesFourBytes :
    dataStart.sect = .data ∧ literalValue "4294967295".toList = some 0xFFFFFFFF ∧ literalValue "007".toList = some 7 := by
  decide
theorem witness_LabelBindsTheSectionPointer :
    "main".toList ≠ [] ∧ (∀ c ∈ "main".toList, isSpace c = false ∧ c ≠ ':') ∧ (∀ c ∈ [' '], isSpace c = true) ∧
    betweenQuotes "main".toList " nop".toList = false ∧ "main".toList ∉ loaderStart.labels.map Prod.fst ∧
    "main".toList ∈ dataStart.labels.map Prod.fst ∧ betweenQuotes ['a', quoteChar] ['b', quoteChar] = true :=
  ⟨by decide, fun c hc => by simp at hc; rcases hc with rfl | rfl | rfl | rfl <;> decide,
   fun c hc => by simp at hc; subst hc; rfl, rfl, List.not_mem_nil, by decide, rfl⟩
theorem witness_MalformedProgramIsRefused :
    oneLine.wf = true ∧ Program.wf ⟨[⟨0x00400004, "jr".toList, [], 1⟩], [], []⟩ = false := ⟨oneLine_wf, by decide⟩
theorem witness_HostRunLoop :
    (∃ t, assembleOp "jr $ra".toList (Scheduler.mk State.reset true).machine = .installed t) ∧
    (Scheduler.mk State.reset false).continuous = false ∧
    ((Scheduler.mk State.reset true).continuous = true ∧ ∃ t, step (Scheduler.mk State.reset true).machine = .next t) :=
  ⟨⟨_, assembleOp_oneLine⟩, rfl, rfl,
   _, rfl⟩

end Sys2Proof.Tests
end

section
/-! Settles the statements of 10_state.md (O17, O21, O26): what an instruction, a step and a load leave of the registers,
the status and the Program. -/

namespace Sys2Proof.Machine

/-! ## Loading -/

@[simp] theorem installProgram_program (s : State) (P : Program) : (installProgram s P).program = P := rfl

@[simp] theorem installProgram_status (s : State) (P : Program) : (installProgram s P).status = .running := rfl

/-- A load succeeds exactly for a well-formed Program, and installs it (30_encoding.md R72, D26, D27). -/
theorem loadProgram_installed_iff {P : Program} {s t : State} :
    loadProgram P s = .installed t ↔ P.wf = true ∧ t = installProgram s P := by
  by_cases hwf : P.wf = true
  · simp [loadProgram, hwf, eq_comm]
  · simp [loadProgram, hwf]

/-- A load of a Program gives no `AssemblerError`. -/
theorem loadProgram_ne_failed (P : Program) (s : State) (e : AssemblerError) (t : State) :
    loadProgram P s ≠ .failed e t := by
  by_cases hwf : P.wf = true <;> simp [loadProgram, hwf]

/-- An assemble succeeds exactly where its source has a well-formed Program, and installs that one
(70_reset_and_hazards.md R231). -/
theorem assembleOp_installed_iff {src : Text} {s t : State} :
    assembleOp src s = .installed t ↔ ∃ P, assemble src = .ok P ∧ P.wf = true ∧ t = installProgram s P := by
  unfold assembleOp
  cases assemble src with
  | ok P => simp [loadProgram_installed_iff]
  | error stop => cases stop <;> simp

/-- An assemble fails exactly where the loader answers an `AssemblerError`, and then changes nothing
(70_reset_and_hazards.md R232). -/
theorem assembleOp_failed_iff {src : Text} {s t : State} {e : AssemblerError} :
    assembleOp src s = .failed e t ↔ assemble src = .error (.error e) ∧ t = s := by
  unfold assembleOp
  cases assemble src with
  | ok P => simp [loadProgram_ne_failed]
  | error stop => cases stop <;> simp [eq_comm]

/-! ## The Program and the status after an instruction and after a step -/

/-- The meaning of `syscall` (44_system.md R180). -/
theorem exec_syscall (s : State) :
    exec .syscall s = .next (syscallService (s.reg Config.v0) (s.reg Config.a0) s).advance := rfl

/-- Service 10 sets the status alone (44_system.md R183). -/
theorem syscallService_exit (arg : Word) (s : State) : syscallService 10 arg s = s.setStatus .exited := rfl

/-- A service keeps the status, or is the exit service (44_system.md R180, R183). -/
theorem syscallService_status (code arg : Word) (s : State) :
    (syscallService code arg s).status = s.status ∨ code = 10 ∧ (syscallService code arg s).status = .exited := by
  rcases syscallService_cases code arg s with ⟨-, e⟩ | ⟨-, e⟩ | ⟨hcode, e⟩ | ⟨-, e⟩ | ⟨-, e⟩ <;> rw [e]
  · exact .inl rfl
  · exact .inl rfl
  · exact .inr ⟨hcode, rfl⟩
  · exact .inl rfl
  · exact .inl rfl

/-- No instruction writes the Program (10_state.md R35). -/
theorem exec_program {i : Instr} {s t : State} (h : exec i s = .next t) : t.program = s.program := by
  obtain ⟨rd, v, rfl⟩ | ⟨rt, off, base, -, rfl⟩ | ⟨rt, off, base, -, rfl⟩ | ⟨w, rfl⟩ | ⟨w, -, rfl⟩ | ⟨-, rfl⟩ :=
    exec_next_cases h
  · exact s.complete_program rd v
  · rfl
  · rfl
  · rfl
  · exact s.setReg_program Config.ra s.nextPc
  · obtain ⟨-, -, -, hprogram⟩ := syscallService_frame (s.reg Config.v0) (s.reg Config.a0) s
    exact hprogram

/-- An instruction keeps the status, unless it is the exit syscall (10_state.md R29). -/
theorem exec_status {i : Instr} {s t : State} (h : exec i s = .next t) :
    t.status = s.status ∨ i = .syscall ∧ s.reg Config.v0 = 10 ∧ t.status = .exited := by
  obtain ⟨rd, v, rfl⟩ | ⟨rt, off, base, -, rfl⟩ | ⟨rt, off, base, -, rfl⟩ | ⟨w, rfl⟩ | ⟨w, -, rfl⟩ | ⟨hi, rfl⟩ :=
    exec_next_cases h
  · exact .inl (s.complete_status rd v)
  · exact .inl rfl
  · exact .inl rfl
  · exact .inl rfl
  · exact .inl (s.setReg_status Config.ra s.nextPc)
  · exact (syscallService_status _ _ s).imp_right fun hexit => ⟨hi, hexit⟩

/-- No step writes the Program (10_state.md R35). -/
theorem step_program {s t : State} (h : step s = .next t) : t.program = s.program := by
  obtain ⟨-, rfl⟩ | ⟨-, ⟨-, rfl⟩ | ⟨I, -, ⟨i, -, hexec⟩ | ⟨k, -, rfl⟩⟩⟩ := step_next_cases h
  · rfl
  · exact endRun_program s
  · exact exec_program hexec
  · exact s.raiseFault_program k I

end Sys2Proof.Machine

namespace Sys2Proof.Claims

open Sys2Proof Sys2Proof.Machine

/-! ## The registers after an instruction -/

/-- The registers of `t` are those of `s` but for one value in the destination of `i`, where it has one other than
register 0 (10_state.md R22, R24, R37). -/
def WritesItsDestination (i : Instr) (s t : State) : Prop :=
  ∃ v, ∀ r, t.reg r = if destination i = some r ∧ r ≠ 0 then v else s.reg r

theorem WritesItsDestination.of_written {i : Instr} {s t : State} {rd : Reg} {v : Word} (hd : destination i = some rd)
    (ht : ∀ r, t.reg r = if r = rd ∧ r ≠ 0 then v else s.reg r) : WritesItsDestination i s t :=
  ⟨v, fun r => by simp only [ht r, hd, Option.some.injEq, eq_comm]⟩

theorem WritesItsDestination.of_kept {i : Instr} {s t : State} (hd : destination i = none) (ht : t.regs = s.regs) :
    WritesItsDestination i s t :=
  ⟨0, fun r => by simp [hd, State.reg_congr ht r]⟩

/-- Every instruction writes its destination and no other register (10_state.md R22, R24, R37). -/
theorem exec_writesItsDestination {i : Instr} {s t : State} (h : exec i s = .next t) : WritesItsDestination i s t := by
  cases i with
  | sll rd rs sh | srl rd rs sh =>
    exact .of_written rfl fun r => by rw [aluShift_next h, State.reg_complete]
  | add rd _ _ | addu rd _ _ | sub rd _ _ | subu rd _ _ | addi rd _ _ | addiu rd _ _ | mul rd _ _ | and rd _ _
  | or rd _ _ | xor rd _ _ | slt rd _ _ | slti rd _ _ | lui rd _ | li rd _ | la rd _ | move rd _ | lw rd _ _
  | lb rd _ _ => cases h; exact .of_written rfl (State.reg_complete s rd _)
  | jal w => cases h; exact .of_written rfl (State.reg_setReg s Config.ra s.nextPc)
  | beq _ _ _ | bne _ _ _ => cases h; exact .of_kept rfl (by split <;> rfl)
  | syscall =>
    cases h
    obtain ⟨hregs, -⟩ := syscallService_frame (s.reg Config.v0) (s.reg Config.a0) s
    exact .of_kept rfl hregs
  | sw _ _ _ | sb _ _ _ | j _ | jr _ | other _ _ => cases h; exact .of_kept rfl rfl

/-- Settles O26: the register file's write law, and `exec_writesItsDestination` at the destination 0. -/
theorem registerZeroIsHardwired : Obligations.RegisterZeroIsHardwired := by
  refine ⟨State.reg_zero, State.setReg_zero, fun s r r' v => ?_, fun i s t h hdest r => ?_⟩
  · have hzero : r' = r ∧ r' ≠ 0 ↔ r' = r ∧ r ≠ 0 := and_congr_right fun e => by rw [e]
    rw [State.reg_setReg, if_congr hzero rfl rfl]
  · obtain ⟨v, hv⟩ := exec_writesItsDestination h
    have hnone : ¬ (destination i = some r ∧ r ≠ 0) := fun ⟨hr, hr0⟩ => hr0 (by simpa [hdest, eq_comm] using hr)
    rw [hv r, if_neg hnone]

/-! ## The Program -/

/-- Settles O21: no step writes the Program, and of the host's operations only an assemble that installs does. -/
theorem programIsImmutable : Obligations.ProgramIsImmutable := by
  refine ⟨fun s t => step_program, resetOp_program, fun src s e t h => ?_, fun src s t h => ?_⟩
  · obtain ⟨-, rfl⟩ := assembleOp_failed_iff.mp h
    rfl
  · obtain ⟨P, hP, -, rfl⟩ := assembleOp_installed_iff.mp h
    exact hP

/-! ## The status -/

/-- What changes the status in a step: the exit syscall, a fetch miss or a decoding fault (10_state.md R29). -/
theorem step_status_change {s t : State} (h : step s = .next t) (hne : t.status ≠ s.status) :
    s.status = .running ∧
      (t.status = .exited ∧ AboutToRun s .syscall ∧ s.reg Config.v0 = 10 ∨
       t.status = .ended ∧ (∀ I ∈ s.program.instrs, I.address ≠ s.pc) ∨
       FaultedAt t s.pc ∧ ∃ I k, fetch s.program s.pc = some I ∧ decode I s.program.labels = .fault k) := by
  obtain ⟨-, rfl⟩ | ⟨hrun, ⟨hmiss, rfl⟩ | ⟨I, hI, ⟨i, hi, hexec⟩ | ⟨k, hk, rfl⟩⟩⟩ := step_next_cases h
  · exact absurd rfl hne
  · exact ⟨hrun, .inr (.inl ⟨rfl, fetch_none_iff.mp hmiss⟩)⟩
  · obtain hkept | ⟨rfl, hcode, hexit⟩ := exec_status hexec
    · exact absurd hkept hne
    · exact ⟨hrun, .inl ⟨hexit, ⟨hrun, I, hI, hi⟩, hcode⟩⟩
  · exact ⟨hrun, .inr (.inr ⟨⟨_, rfl⟩, I, k, hI, hk⟩)⟩

/-- The exit syscall leads to `Exited` (10_state.md R29, 44_system.md R183). -/
theorem step_exit {s : State} (h : AboutToRun s .syscall) (hcode : s.reg Config.v0 = 10) :
    ∃ t, step s = .next t ∧ t.status = .exited := by
  obtain ⟨hrun, I, hI, hi⟩ := h
  refine ⟨(s.setStatus .exited).advance, ?_, rfl⟩
  rw [step_of_op hrun hI hi, exec_syscall, hcode, syscallService_exit]

/-- Settles O17: `step_status_change` gives the only ways out of `Running`, the step laws each of them, and the loader's
laws the status after an assemble. -/
theorem statusTransitions : Obligations.StatusTransitions := by
  refine ⟨fun s t => step_status_change, fun s => step_of_stopped, fun s => step_exit, fun s hrun hmiss => ?_,
    fun s I k hrun hI hk => ?_, resetOp_status, fun src s t h => ?_, fun src s e t h => ?_⟩
  · exact ⟨endRun s, step_of_missing hrun (fetch_none_iff.mpr hmiss), rfl⟩
  · exact ⟨s.raiseFault k I, step_of_fault hrun hI hk, _, rfl⟩
  · obtain ⟨P, -, -, rfl⟩ := assembleOp_installed_iff.mp h
    exact installProgram_status s P
  · obtain ⟨-, rfl⟩ := assembleOp_failed_iff.mp h
    rfl

end Sys2Proof.Claims
end

section
/-! Settles the statement of 20_memory.md (O39): the byte laws of `writeWord` in the claims' own terms, `bigEndianByte`
and `wordAt`. -/

namespace Sys2Proof.Claims

open Sys2Proof Sys2Proof.Machine

/-- The model's byte field is the arithmetic one (20_memory.md R57). -/
theorem wordByte_eq_bigEndianByte (v : Word) (k : Nat) : wordByte v k = bigEndianByte v k := by
  rw [wordByte, BitVec.extractLsb', Nat.shiftRight_eq_div_pow, bigEndianByte]

/-- A word store lists its four bytes in terms of the machine's wrapping addition (20_memory.md R55). -/
theorem wordAt_eq (a v b : Word) :
    wordAt a v b =
      if b = a then some (bigEndianByte v 0)
      else if b = a + 1 then some (bigEndianByte v 1)
      else if b = a + 2 then some (bigEndianByte v 2)
      else if b = a + 3 then some (bigEndianByte v 3)
      else none := by
  have h1 : a + 1 = wrap32 (a.toNat + 1) := add_ofNat_eq_wrap32 a 1
  have h2 : a + 2 = wrap32 (a.toNat + 2) := add_ofNat_eq_wrap32 a 2
  have h3 : a + 3 = wrap32 (a.toNat + 3) := add_ofNat_eq_wrap32 a 3
  rw [wordAt, h1, h2, h3]

/-- What a byte reads as after a word write: the byte the store leaves there, else what was there (20_memory.md R55). -/
theorem readByte_writeWord_eq_wordAt (m : Memory) (a v b : Word) :
    readByte (writeWord m a v) b = (wordAt a v b).getD (readByte m b) := by
  simp only [readByte_writeWord, wordAt_eq, wordByte_eq_bigEndianByte, apply_ite (Option.getD · (readByte m b)),
    Option.getD_some, Option.getD_none]

/-- The four addresses of a word are distinct, also across the top of memory: each holds its own byte
(20_memory.md R57). -/
theorem wordAt_offset (a v : Word) {k : Nat} (hk : k < 4) :
    wordAt a v (wrap32 (a.toNat + k)) = some (bigEndianByte v k) := by
  rw [← add_ofNat_eq_wrap32, wordAt_eq]
  interval_cases k <;> simp

/-- Settles O39: the word laws through `wordAt`, and the byte law as the model has it. -/
theorem wordAndByteViewsAgree : Obligations.WordAndByteViewsAgree := by
  refine fun m a v => ⟨readWord_writeWord_self m a v, fun k hk => ?_, fun b hb => ?_,
    fun b w => readByte_writeByte m a w b⟩
  · rw [readByte_writeWord_eq_wordAt, wordAt_offset a v hk, Option.getD_some]
  · rw [readByte_writeWord_eq_wordAt, hb, Option.getD_none]

end Sys2Proof.Claims
end

section
/-! Settles the statements of 30_encoding.md (O5, O14): operand resolution of a value token, and fetch in a well-formed
Program. -/

namespace Sys2Proof

/-! ## Value tokens -/

/-- A label name resolves to its bound value, whatever else the token may be (30_encoding.md R86). -/
theorem resolveVal_of_label {L : Labels} {t : Token} {w : Word} (h : lookupToken t L = some w) :
    resolveVal L t = .ok w := by
  simp only [resolveVal, h]

/-- A decimal literal that is no label name resolves to the literal's value (30_encoding.md R86, R87). -/
theorem resolveVal_of_literal {L : Labels} {t : Token} {w : Word} (hlabel : t ∉ L.map Prod.fst)
    (hlit : literalValue t = some w) : resolveVal L t = .ok w := by
  simp only [resolveVal, lookupToken_eq_none_iff.mpr hlabel, hlit]

/-- A token that is neither a label name nor a decimal literal has no value (30_encoding.md R86). -/
theorem resolveVal_error {L : Labels} {t : Token} (hlabel : t ∉ L.map Prod.fst) (hlit : literalValue t = none) :
    resolveVal L t = .error .badValue := by
  simp only [resolveVal, lookupToken_eq_none_iff.mpr hlabel, hlit]

/-! ## Instruction addresses -/

/-- Records that stand from `n` on have no address below `n` (30_encoding.md R72). -/
theorem addressesFrom_le {n : Nat} {l : List Record} (h : addressesFrom n l = true) :
    ∀ I ∈ l, n ≤ I.address.toNat := by
  induction l generalizing n with
  | nil => simp
  | cons J rest ih =>
    simp only [addressesFrom, Bool.and_eq_true, beq_iff_eq] at h
    obtain ⟨hJ, hrest⟩ := h
    intro I hI
    rcases List.mem_cons.mp hI with rfl | hI
    · exact hJ.ge
    · exact (Nat.le_add_right n 4).trans (ih hrest I hI)

/-- Records that stand at `n`, `n + 4`, ... have distinct addresses: every later one is above the first
(30_encoding.md R72). -/
theorem addressesFrom_nodup {n : Nat} {l : List Record} (h : addressesFrom n l = true) :
    (l.map Record.address).Nodup := by
  induction l generalizing n with
  | nil => exact List.nodup_nil
  | cons J rest ih =>
    simp only [addressesFrom, Bool.and_eq_true, beq_iff_eq] at h
    obtain ⟨hJ, hrest⟩ := h
    refine List.nodup_cons.mpr ⟨fun hmem => ?_, ih hrest⟩
    obtain ⟨I, hI, heq⟩ := List.mem_map.mp hmem
    have hle : n + 4 ≤ I.address.toNat := addressesFrom_le hrest I hI
    rw [heq] at hle
    omega

/-- No two records of a well-formed Program stand at one address (30_encoding.md R72, R73). -/
theorem Program.eq_of_address_eq {P : Program} (hwf : P.wf = true) {I J : Record} (hI : I ∈ P.instrs)
    (hJ : J ∈ P.instrs) (h : I.address = J.address) : I = J := by
  simp only [Program.wf, Bool.and_eq_true] at hwf
  obtain ⟨⟨haddr, -⟩, -⟩ := hwf
  exact List.inj_on_of_nodup_map (addressesFrom_nodup haddr) hI hJ h

end Sys2Proof

namespace Sys2Proof.Machine

/-- In a well-formed Program, fetch finds exactly the record that stands at the pc (30_encoding.md R73). -/
theorem fetch_eq_some_iff {P : Program} (hwf : P.wf = true) {pc : Word} {I : Record} :
    fetch P pc = some I ↔ I ∈ P.instrs ∧ I.address = pc := by
  refine ⟨fetch_some, fun ⟨hI, hpc⟩ => ?_⟩
  cases hf : fetch P pc with
  | none => exact absurd hpc (fetch_none_iff.mp hf I hI)
  | some J =>
    obtain ⟨hJ, hJpc⟩ := fetch_some hf
    rw [Program.eq_of_address_eq hwf hJ hI (hJpc.trans hpc.symm)]

end Sys2Proof.Machine

namespace Sys2Proof.Claims

open Sys2Proof Sys2Proof.Machine

/-- Settles O5: one law of `resolveVal` for each case of R86. -/
theorem valueTokensResolveLabelFirst : Obligations.ValueTokensResolveLabelFirst :=
  fun _ _ => ⟨fun _ => resolveVal_of_label, fun _ => resolveVal_of_literal, resolveVal_error⟩

/-- Settles O14: the addresses of a well-formed Program are distinct, so what fetch finds at the pc is the only record
there. -/
theorem fetchSelectsTheUniqueInstruction : Obligations.FetchSelectsTheUniqueInstruction :=
  fun _ _ hwf => ⟨fun _ => fetch_eq_some_iff hwf, fun _ hI _ hJ hIpc hJpc =>
    Program.eq_of_address_eq hwf hI hJ (hIpc.trans hJpc.symm)⟩

end Sys2Proof.Claims
end

section
/-! Settles the statements of 40_arithmetic_logic.md (O27, O28, O30, O31, O33): the decoders of the forms RRR and RRV,
the completion of an instruction that writes a register, and what each ALU operation computes. -/

namespace Sys2Proof

/-! ## The forms RRR and RRV (30_encoding.md R83, R89, R90) -/

/-- A token that is no register name faults in a register position (30_encoding.md R85). -/
theorem resolved_of_noReg {t : Token} (h : ∀ r, t ≠ registerName r) (k : Reg → Decoded) :
    resolved (resolveReg t) k = .fault .badRegister := by
  rw [resolveReg_error h, resolved_error]

/-- Where what follows a register operand reports `BadRegister`, so does the whole, whether or not that operand
resolves (30_encoding.md R90). -/
theorem resolved_reg_badRegister (t : Token) {k : Reg → Decoded} (h : ∀ r, k r = .fault .badRegister) :
    resolved (resolveReg t) k = .fault .badRegister := by
  by_cases ht : ∃ r, t = registerName r
  · obtain ⟨r, rfl⟩ := ht
    rw [resolveReg_registerName, resolved_ok, h]
  · exact resolved_of_noReg (not_exists.mp ht) k

theorem decodeRRR_of_length_ne (mk : Reg → Reg → Reg → Instr) {ops : List Token} (h : ops.length ≠ 3) :
    decodeRRR mk ops = .fault .operandCount := by
  match ops, h with
  | [], _ | [_], _ | [_, _], _ | _ :: _ :: _ :: _ :: _, _ => rfl
  | [_, _, _], h => exact absurd rfl h

theorem decodeRRV_of_length_ne (L : Labels) (mk : Reg → Reg → Word → Instr) {ops : List Token} (h : ops.length ≠ 3) :
    decodeRRV L mk ops = .fault .operandCount := by
  match ops, h with
  | [], _ | [_], _ | [_, _], _ | _ :: _ :: _ :: _ :: _, _ => rfl
  | [_, _, _], h => exact absurd rfl h

theorem decodeRRR_registerNames (mk : Reg → Reg → Reg → Instr) (x y z : Reg) :
    decodeRRR mk [registerName x, registerName y, registerName z] = .op (mk x y z) := by
  simp only [decodeRRR, resolveReg_registerName, resolved_ok]

/-- Past two register names, form RRV answers as its value operand resolves. -/
theorem decodeRRV_registerNames (L : Labels) (mk : Reg → Reg → Word → Instr) (x y : Reg) (c : Token) :
    decodeRRV L mk [registerName x, registerName y, c] = resolved (resolveVal L c) fun v => .op (mk x y v) := by
  simp only [decodeRRV, resolveReg_registerName, resolved_ok]

/-! ## The ring operations under `wrap32` (00_scope.md R9) -/

theorem wrap32_add (m n : Int) : wrap32 (m + n) = wrap32 m + wrap32 n := BitVec.ofInt_add m n

theorem wrap32_sub (m n : Int) : wrap32 (m - n) = wrap32 m - wrap32 n := by
  rw [Int.sub_eq_add_neg, wrap32_add, BitVec.sub_eq_add_neg, wrap32, wrap32, wrap32, BitVec.ofInt_neg]

theorem wrap32_mul (m n : Int) : wrap32 (m * n) = wrap32 m * wrap32 n := BitVec.ofInt_mul m n

/-- A word is `wrap32` of its unsigned reading. -/
@[simp] theorem wrap32_toNat (a : Word) : wrap32 a.toNat = a := by
  rw [wrap32, BitVec.ofInt_natCast, BitVec.ofNat_toNat, BitVec.setWidth_eq]

/-- A word is `wrap32` of its signed reading. -/
@[simp] theorem wrap32_toInt (a : Word) : wrap32 a.toInt = a := BitVec.ofInt_toInt

end Sys2Proof

namespace Sys2Proof.Machine

/-! ## What the ALU computes (40_arithmetic_logic.md R120) -/

theorem alu_add_eq_wrap32 (a b : Word) : alu .add a b = wrap32 (a.toNat + b.toNat) := by
  rw [wrap32_add, wrap32_toNat, wrap32_toNat, alu]

theorem alu_sub_eq_wrap32 (a b : Word) : alu .sub a b = wrap32 (a.toNat - b.toNat) := by
  rw [wrap32_sub, wrap32_toNat, wrap32_toNat, alu]

theorem alu_mul_eq_wrap32 (a b : Word) : alu .mul a b = wrap32 (a.toInt * b.toInt) := by
  rw [wrap32_mul, wrap32_toInt, wrap32_toInt, alu]

/-- A word is the one made of its bits. -/
theorem word_eq_ofFnLE {a : Word} {f : Fin 32 → Bool} (h : ∀ k : Fin 32, a.getLsbD k = f k) : a = BitVec.ofFnLE f :=
  BitVec.eq_of_getElem_eq fun i hi => by
    rw [BitVec.getElem_ofFnLE f i hi, ← h ⟨i, hi⟩, BitVec.getLsbD_eq_getElem hi]

theorem alu_and_eq_ofFnLE (a b : Word) :
    alu .and a b = BitVec.ofFnLE fun k : Fin 32 => a.getLsbD k && b.getLsbD k :=
  word_eq_ofFnLE fun _ => BitVec.getLsbD_and

theorem alu_or_eq_ofFnLE (a b : Word) :
    alu .or a b = BitVec.ofFnLE fun k : Fin 32 => a.getLsbD k || b.getLsbD k :=
  word_eq_ofFnLE fun _ => BitVec.getLsbD_or

theorem alu_xor_eq_ofFnLE (a b : Word) :
    alu .xor a b = BitVec.ofFnLE fun k : Fin 32 => a.getLsbD k != b.getLsbD k :=
  word_eq_ofFnLE fun k => by rw [alu, BitVec.getLsbD_xor, Bool.bne_eq_xor]

theorem alu_slt_eq_ite (a b : Word) : alu .slt a b = if a.toInt < b.toInt then 1 else 0 := rfl

end Sys2Proof.Machine

namespace Sys2Proof.Claims

open Sys2Proof Sys2Proof.Machine

/-! ## The forms in the claims' terms -/

theorem resolveVal_of_hasValue {L : Labels} {t : Token} {v : Word} (h : HasValue L t v) : resolveVal L t = .ok v := by
  obtain hlabel | ⟨hlabel, hlit⟩ := h
  · exact resolveVal_of_label hlabel
  · exact resolveVal_of_literal (lookupToken_eq_none_iff.mp hlabel) hlit

theorem resolveVal_of_hasNoValue {L : Labels} {t : Token} (h : HasNoValue L t) : resolveVal L t = .error .badValue := by
  obtain ⟨hlabel, hlit⟩ := h
  exact resolveVal_error (lookupToken_eq_none_iff.mp hlabel) hlit

/-- A mnemonic that the dispatch table decodes by `decodeRRR` has the form RRR. -/
theorem formRRR_of_dispatch {m : String} {mk : Reg → Reg → Reg → Instr}
    (hm : ∀ L, decodeTokens L m.toList = decodeRRR mk) : FormRRR m mk := by
  refine ⟨fun L ops hlen => ?_, fun L a b c x y z ha hb hc => ?_, fun L a b c hbad => ?_⟩ <;> rw [hm]
  · exact decodeRRR_of_length_ne mk hlen
  · rw [ha, hb, hc, decodeRRR_registerNames]
  · obtain ha | hb | hc := hbad
    · exact resolved_of_noReg ha _
    · exact resolved_reg_badRegister a fun _ => resolved_of_noReg hb _
    · exact resolved_reg_badRegister a fun _ => resolved_reg_badRegister b fun _ => resolved_of_noReg hc _

/-- A mnemonic that the dispatch table decodes by `decodeRRV` has the form RRV. -/
theorem formRRV_of_dispatch {m : String} {mk : Reg → Reg → Word → Instr}
    (hm : ∀ L, decodeTokens L m.toList = decodeRRV L mk) : FormRRV m mk := by
  refine ⟨fun L ops hlen => ?_, fun L a b c x y v ha hb hc => ?_, fun L a b c hbad => ?_,
    fun L a b c x y ha hb hc => ?_⟩ <;> rw [hm]
  · exact decodeRRV_of_length_ne L mk hlen
  · rw [ha, hb, decodeRRV_registerNames, resolveVal_of_hasValue hc, resolved_ok]
  · obtain ha | hb := hbad
    · exact resolved_of_noReg ha _
    · exact resolved_reg_badRegister a fun _ => resolved_of_noReg hb _
  · rw [ha, hb, decodeRRV_registerNames, resolveVal_of_hasNoValue hc, resolved_error]

/-! ## Completion -/

/-- Where `complete` is an instruction's whole effect, it writes its destination, advances the pc and changes nothing
else (10_state.md R22, R26). -/
theorem completesWriting_of_complete {i : Instr} {s : State} {rd : Reg} {v : Word}
    (h : exec i s = .next (s.complete rd v)) : CompletesWriting i s rd v :=
  ⟨s.complete rd v, h, s.nextPc_eq_wrap32 ▸ s.complete_pc rd v, s.reg_complete rd v,
    fun _ => by rw [State.complete_mem], s.complete_out rd v, s.complete_status rd v, s.complete_program rd v⟩

/-- A three-register instruction is its dispatch, its ALU operation and what that operation computes. -/
theorem registerRule_of_alu {m : String} {mk : Reg → Reg → Reg → Instr} {op : AluOp} {f : Word → Word → Word}
    (hm : ∀ L, decodeTokens L m.toList = decodeRRR mk)
    (hexec : ∀ rd rs rt s, exec (mk rd rs rt) s = aluRegReg op rd rs rt s) (hf : ∀ a b, alu op a b = f a b) :
    RegisterRule m mk f :=
  ⟨formRRR_of_dispatch hm, fun rd rs rt s =>
    completesWriting_of_complete (by rw [hexec, aluRegReg_next, hf])⟩

/-- A register-immediate instruction is its dispatch, its ALU operation and what that operation computes. -/
theorem immediateRule_of_alu {m : String} {mk : Reg → Reg → Word → Instr} {op : AluOp} {f : Word → Word → Word}
    (hm : ∀ L, decodeTokens L m.toList = decodeRRV L mk)
    (hexec : ∀ rd rs v s, exec (mk rd rs v) s = aluRegVal op rd rs v s) (hf : ∀ a b, alu op a b = f a b) :
    ImmediateRule m mk f :=
  ⟨formRRV_of_dispatch hm, fun rd rs v s =>
    completesWriting_of_complete (by rw [hexec, aluRegVal_next, hf])⟩

/-! ## The statements -/

/-- Settles O27: both mnemonics run the ALU's `add`, which is the wrapped sum. -/
theorem addAndAdduWriteTheWrappedSum : Obligations.AddAndAdduWriteTheWrappedSum :=
  ⟨registerRule_of_alu decodeTokens_add (fun _ _ _ _ => rfl) alu_add_eq_wrap32,
    registerRule_of_alu decodeTokens_addu (fun _ _ _ _ => rfl) alu_add_eq_wrap32⟩

/-- Settles O28: both mnemonics run the ALU's `sub`, which is the wrapped difference. -/
theorem subAndSubuWriteTheWrappedDifference : Obligations.SubAndSubuWriteTheWrappedDifference :=
  ⟨registerRule_of_alu decodeTokens_sub (fun _ _ _ _ => rfl) alu_sub_eq_wrap32,
    registerRule_of_alu decodeTokens_subu (fun _ _ _ _ => rfl) alu_sub_eq_wrap32⟩

/-- Settles O30: the ALU's `mul` is the wrapped product of the signed readings. -/
theorem mulWritesTheLowProduct : Obligations.MulWritesTheLowProduct :=
  registerRule_of_alu decodeTokens_mul (fun _ _ _ _ => rfl) alu_mul_eq_wrap32

/-- Settles O31: bit `k` of each bitwise ALU operation is that operation on bit `k` of its operands. -/
theorem logicWorksBitByBit : Obligations.LogicWorksBitByBit :=
  ⟨registerRule_of_alu decodeTokens_and (fun _ _ _ _ => rfl) alu_and_eq_ofFnLE,
    registerRule_of_alu decodeTokens_or (fun _ _ _ _ => rfl) alu_or_eq_ofFnLE,
    registerRule_of_alu decodeTokens_xor (fun _ _ _ _ => rfl) alu_xor_eq_ofFnLE⟩

/-- Settles O33: both mnemonics run the ALU's `slt`, the signed comparison, on a register and on a value. -/
theorem setLessThanIsSigned : Obligations.SetLessThanIsSigned :=
  ⟨registerRule_of_alu decodeTokens_slt (fun _ _ _ _ => rfl) alu_slt_eq_ite,
    immediateRule_of_alu decodeTokens_slti (fun _ _ _ _ => rfl) alu_slt_eq_ite⟩

end Sys2Proof.Claims
end

section
/-! Settles the statements of 42_load_store.md (O36, O37, O38): what a memory token is, the decoder of the form RM, the
values that a load reads, and the completion of an instruction that stores. -/

namespace Sys2Proof

/-! ## The characters of a decimal literal (30_encoding.md R87) -/

/-- What `readDigits` accepts are digits. -/
theorem digitValue_ne_none_of_readDigits {t : Text} {acc n : Nat} (h : readDigits t acc = some n) :
    ∀ c ∈ t, digitValue c ≠ none := by
  induction t generalizing acc with
  | nil => simp
  | cons c cs ih =>
    rw [readDigits] at h
    split at h
    · next d hd => exact List.forall_mem_cons.mpr ⟨by simp [hd], ih h⟩
    · cases h

theorem digitValue_ne_none_of_readNat {t : Text} {n : Nat} (h : readNat t = some n) :
    ∀ c ∈ t, digitValue c ≠ none := by
  rw [readNat] at h
  split at h
  · cases h
  · exact digitValue_ne_none_of_readDigits h

/-- What `readInt` accepts is digits, or `-` and digits. -/
theorem readNat_of_readInt {t : Text} {n : Int} (h : readInt t = some n) :
    ∃ k, readNat t = some k ∨ ∃ cs, t = '-' :: cs ∧ readNat cs = some k := by
  cases t with
  | nil => cases h
  | cons c cs =>
    rw [readInt] at h
    split at h
    · next hc =>
      split at h
      · next k hk => exact ⟨k, .inr ⟨cs, by rw [hc], hk⟩⟩
      · cases h
    · split at h
      · next k hk => exact ⟨k, .inl hk⟩
      · cases h

theorem readInt_of_literalValue {t : Token} {v : Word} (h : literalValue t = some v) : ∃ n, readInt t = some n := by
  rw [literalValue] at h
  split at h
  · next n hn => exact ⟨n, hn⟩
  · cases h

/-- No literal holds a parenthesis, so in `<lit>(<reg>)` the literal ends at the first one. -/
theorem ne_paren_of_literalValue {t : Token} {v : Word} (h : literalValue t = some v) : ∀ c ∈ t, c ≠ '(' := by
  have digits : ∀ {u : Text} {k : Nat}, readNat u = some k → ∀ c ∈ u, c ≠ '(' := fun hu c hc hparen =>
    digitValue_ne_none_of_readNat hu c hc (by rw [hparen]; decide)
  obtain ⟨n, hn⟩ := readInt_of_literalValue h
  obtain ⟨k, hk | ⟨cs, rfl, hk⟩⟩ := readNat_of_readInt hn
  · exact digits hk
  · exact List.forall_mem_cons.mpr ⟨by decide, digits hk⟩

/-! ## Memory tokens (30_encoding.md R88) -/

theorem readBase_some {t : Text} {base : Reg} (h : readBase t = some base) : t = registerName base ++ [')'] := by
  rw [readBase] at h
  split at h
  · next hlast => rw [← (lookup_register_iff _ _).mp h, List.dropLast_append_getLast? _ hlast]
  · cases h

/-- Where `mem(k)` finds a base register, the token holds a `(`, and `<reg>)` is all that stands after the first one. -/
theorem dropWhile_eq_paren_cons {t : Text} {base : Reg} (h : readBase (t.dropWhile (· ≠ '(')).tail = some base) :
    t.dropWhile (· ≠ '(') = '(' :: (registerName base ++ [')']) := by
  cases hd : t.dropWhile (· ≠ '(') with
  | nil => rw [hd] at h; cases h
  | cons c rest =>
    have hne : t.dropWhile (· ≠ '(') ≠ [] := by rw [hd]; exact List.cons_ne_nil c rest
    have hc := List.head_dropWhile_not (· ≠ '(') hne
    simp only [hd, List.head_cons, decide_eq_false_iff_not, not_not] at hc
    rw [hd] at h
    rw [hc, ← readBase_some h, List.tail_cons]

/-- What `mem(k)` accepts is `<lit>(<reg>)`. -/
theorem resolveMem_ok {t : Token} {off : Word} {base : Reg} (h : resolveMem t = .ok (off, base)) :
    ∃ lit, literalValue lit = some off ∧ t = lit ++ '(' :: (registerName base ++ [')']) := by
  rw [resolveMem] at h
  split at h
  · next o b hlit hbase =>
    cases h
    exact ⟨_, hlit, by rw [← dropWhile_eq_paren_cons hbase, List.takeWhile_append_dropWhile]⟩
  · cases h

/-- `BadMemOperand` is the only fault of `mem(k)`. -/
theorem resolveMem_ok_or_error (t : Token) :
    (∃ off base, resolveMem t = .ok (off, base)) ∨ resolveMem t = .error .badMemOperand := by
  rw [resolveMem]
  split
  · exact .inl ⟨_, _, rfl⟩
  · exact .inr rfl

/-! ## The form RM (30_encoding.md R83, R89, R90) -/

theorem decodeRM_of_length_ne (mk : Reg → Word → Reg → Instr) {ops : List Token} (h : ops.length ≠ 2) :
    decodeRM mk ops = .fault .operandCount := by
  match ops, h with
  | [], _ | [_], _ | _ :: _ :: _ :: _, _ => rfl
  | [_, _], h => exact absurd rfl h

/-- Past a register name, form RM answers as its memory operand resolves. -/
theorem decodeRM_registerName (mk : Reg → Word → Reg → Instr) (x : Reg) (b : Token) :
    decodeRM mk [registerName x, b] = resolved (resolveMem b) fun m => .op (mk x m.1 m.2) := by
  simp only [decodeRM, resolveReg_registerName, resolved_ok]

end Sys2Proof

namespace Sys2Proof.Machine

/-! ## Addresses and the values of loads and stores -/

/-- The only addressing mode (42_load_store.md R160). -/
theorem effectiveAddress_eq_wrap32 (s : State) (off : Word) (base : Reg) :
    effectiveAddress s off base = wrap32 ((s.reg base).toNat + off.toInt) := by
  rw [wrap32_add, wrap32_toNat, wrap32_toInt, effectiveAddress]

/-- A byte put below a number is its last digit in base 2^8. -/
theorem toNat_append_byte {n : Nat} (x : BitVec n) (b : Byte) : (x ++ b).toNat = x.toNat * 2 ^ 8 + b.toNat := by
  rw [BitVec.toNat_append, ← Nat.shiftLeft_add_eq_or_of_lt b.isLt, Nat.shiftLeft_eq]

/-- Four bytes put together are a number in base 2^8, the first byte the most significant (20_memory.md R54). -/
theorem append_bytes_eq_wrap32 (b0 b1 b2 b3 : Byte) :
    b0 ++ b1 ++ b2 ++ b3 =
      wrap32 (b0.toNat * 2 ^ 24 + b1.toNat * 2 ^ 16 + b2.toNat * 2 ^ 8 + b3.toNat) := by
  have happend : (b0 ++ b1 ++ b2 ++ b3).toNat =
      b0.toNat * 2 ^ 24 + b1.toNat * 2 ^ 16 + b2.toNat * 2 ^ 8 + b3.toNat := by
    rw [toNat_append_byte, toNat_append_byte, toNat_append_byte]
    ring
  rw [← wrap32_toNat (b0 ++ b1 ++ b2 ++ b3), happend]
  push_cast
  rfl

/-- A word read in the spec's terms: four bytes, their addresses wrapping (20_memory.md R54). -/
theorem readWord_eq_wrap32 (m : Memory) (a : Word) :
    readWord m a =
      wrap32 ((readByte m a).toNat * 2 ^ 24 + (readByte m (wrap32 (a.toNat + 1))).toNat * 2 ^ 16 +
        (readByte m (wrap32 (a.toNat + 2))).toNat * 2 ^ 8 + (readByte m (wrap32 (a.toNat + 3))).toNat) := by
  have h1 : a + 1 = wrap32 (a.toNat + 1) := add_ofNat_eq_wrap32 a 1
  have h2 : a + 2 = wrap32 (a.toNat + 2) := add_ofNat_eq_wrap32 a 2
  have h3 : a + 3 = wrap32 (a.toNat + 3) := add_ofNat_eq_wrap32 a 3
  rw [readWord, append_bytes_eq_wrap32, h1, h2, h3]

/-- Sign extension keeps the signed reading (00_scope.md R10). -/
theorem sext8_eq_wrap32 (b : Byte) : sext8 b = wrap32 b.toInt := rfl

/-- The low byte is the word modulo 2^8. -/
theorem lowByte_eq_ofNat (v : Word) : lowByte v = BitVec.ofNat 8 v.toNat := rfl

end Sys2Proof.Machine

namespace Sys2Proof.Claims

open Sys2Proof Sys2Proof.Machine

/-! ## The form RM in the claims' terms -/

theorem resolveMem_of_isMemoryToken {t : Token} {off : Word} {base : Reg} (h : IsMemoryToken t off base) :
    resolveMem t = .ok (off, base) := by
  obtain ⟨lit, hlit, rfl⟩ := h
  exact resolveMem_form hlit (ne_paren_of_literalValue hlit)

theorem resolveMem_of_not_isMemoryToken {t : Token} (h : ∀ off base, ¬ IsMemoryToken t off base) :
    resolveMem t = .error .badMemOperand :=
  (resolveMem_ok_or_error t).resolve_left fun ⟨off, base, hok⟩ => h off base (resolveMem_ok hok)

/-- A mnemonic that the dispatch table decodes by `decodeRM` has the form RM. -/
theorem formRM_of_dispatch {m : String} {mk : Reg → Word → Reg → Instr}
    (hm : ∀ L, decodeTokens L m.toList = decodeRM mk) : FormRM m mk := by
  refine ⟨fun L ops hlen => ?_, fun L a b x off base ha hb => ?_, fun L a b ha => ?_, fun L a b x ha hb => ?_⟩ <;>
    rw [hm]
  · exact decodeRM_of_length_ne mk hlen
  · rw [ha, decodeRM_registerName, resolveMem_of_isMemoryToken hb, resolved_ok]
  · exact resolved_of_noReg ha _
  · rw [ha, decodeRM_registerName, resolveMem_of_not_isMemoryToken hb, resolved_error]

/-! ## Completion of a store -/

/-- Where a change of memory and the advance are an instruction's whole effect, it stores what the new memory reads and
changes nothing else (10_state.md R26). -/
theorem completesStoring_of_setMem {i : Instr} {s : State} {m : Memory} {bytes : Word → Option Byte}
    (h : exec i s = .next (s.setMem m).advance) (hm : ∀ a, readByte m a = (bytes a).getD (readByte s.mem a)) :
    CompletesStoring i s bytes :=
  ⟨(s.setMem m).advance, h, s.nextPc_eq_wrap32, fun _ => rfl, hm, rfl, rfl, rfl⟩

/-! ## The statements -/

/-- Settles O36: both loads complete with what they read, and each value read is the spec's. -/
theorem loadsReadTheEffectiveAddress : Obligations.LoadsReadTheEffectiveAddress := by
  refine ⟨formRM_of_dispatch decodeTokens_lw, formRM_of_dispatch decodeTokens_lb, effectiveAddress_eq_wrap32,
    fun rt off base s => ?_, fun rt off base s => ?_⟩
  · rw [← readWord_eq_wrap32]
    exact completesWriting_of_complete rfl
  · rw [← sext8_eq_wrap32]
    exact completesWriting_of_complete rfl

/-- Settles O37: the memory after a word write, through `wordAt`. -/
theorem swStoresTheWordBigEndian : Obligations.SwStoresTheWordBigEndian :=
  ⟨formRM_of_dispatch decodeTokens_sw, fun _ _ _ s =>
    completesStoring_of_setMem rfl (readByte_writeWord_eq_wordAt s.mem _ _)⟩

/-- Settles O38: the memory after a byte write, whose byte is the low one. -/
theorem sbStoresTheLowByte : Obligations.SbStoresTheLowByte := by
  refine ⟨formRM_of_dispatch decodeTokens_sb, fun rt off base s => completesStoring_of_setMem rfl fun a => ?_⟩
  rw [readByte_writeByte, lowByte_eq_ofNat, apply_ite (Option.getD · (readByte s.mem a)), Option.getD_some,
    Option.getD_none]

end Sys2Proof.Claims
end

section
/-! Settles the statement of 44_system.md on service 11 and the codes without a service (O46). -/

namespace Sys2Proof.Machine

/-- The advance in the spec's terms: the pc alone changes (10_state.md R26). -/
theorem State.advance_eq_wrap32 (s : State) : s.advance = { s with pc := wrap32 (s.pc.toNat + 4) } := by
  rw [← s.nextPc_eq_wrap32, State.advance, State.setPc]

/-- Service 11 appends the low byte of its argument and does nothing else (44_system.md R184). -/
theorem syscallService_printChar (arg : Word) (s : State) : syscallService 11 arg s = s.emit [lowByte arg] := rfl

/-- A code that names no service has no effect before the advance (44_system.md R185). -/
theorem syscallService_of_unlisted {code : Word} (h1 : code ≠ 1) (h4 : code ≠ 4) (h10 : code ≠ 10) (h11 : code ≠ 11)
    (arg : Word) (s : State) : syscallService code arg s = s := by
  obtain ⟨h, -⟩ | ⟨h, -⟩ | ⟨h, -⟩ | ⟨h, -⟩ | ⟨-, hkeeps⟩ := syscallService_cases code arg s
  · exact absurd h h1
  · exact absurd h h4
  · exact absurd h h10
  · exact absurd h h11
  · exact hkeeps

end Sys2Proof.Machine

namespace Sys2Proof.Claims

open Sys2Proof Sys2Proof.Machine

/-- Settles O46: what the service does before the advance, then the advance in the spec's terms. -/
theorem printCharAndOtherServices : Obligations.PrintCharAndOtherServices := by
  refine ⟨fun s hcode => ?_, fun s h1 h4 h10 h11 => ?_⟩
  · rw [exec_syscall, hcode, syscallService_printChar, lowByte_eq_ofNat, State.advance_eq_wrap32, State.emit]
  · rw [CompletesGoingTo, exec_syscall, syscallService_of_unlisted h1 h4 h10 h11, State.advance_eq_wrap32]

end Sys2Proof.Claims
end

section
/-! Settles the statement of 60_exceptions.md (O16): runs of a machine whose step changes nothing, and the ways out of
`Faulted`. -/

namespace Sys2Proof

open Sys2Proof.Machine

/-- A run of `k + 1` steps is a step and then a run of `k`. -/
theorem run_succ_of_step {M : Host.Core} {s s' : M.State} (h : M.step s = .next s') (k : Nat) :
    M.run (k + 1) s = M.run k s' := by
  rw [Host.Core.run, h]

/-- Where one step changes nothing, no number of steps does. -/
theorem runsTo_self_of_step {s : State} (h : step s = .next s) (k : Nat) : RunsTo k s s := by
  induction k with
  | zero => rfl
  | succ k ih => exact (run_succ_of_step (M := core) h k).trans ih

/-- A stopped machine stays as it is for any number of steps (10_state.md R36). -/
theorem runsTo_self_of_stopped {s : State} (h : s.status ≠ .running) (k : Nat) : RunsTo k s s :=
  runsTo_self_of_step (step_of_stopped h) k

theorem FaultedAt.status_ne_running {s : State} {fpc : Word} (h : FaultedAt s fpc) : s.status ≠ .running := by
  obtain ⟨msg, hmsg⟩ := h
  simp [hmsg]

end Sys2Proof

namespace Sys2Proof.Claims

open Sys2Proof Sys2Proof.Machine

/-- Settles O16: a faulted machine is stopped, and the loader's laws say what an assemble leaves of it. -/
theorem faultedUntilResetOrLoad : Obligations.FaultedUntilResetOrLoad := by
  refine fun s fpc hfault =>
    ⟨runsTo_self_of_stopped hfault.status_ne_running, fun src e t h => ?_, resetOp_status s, fun src P hP hwf => ?_⟩
  · obtain ⟨-, rfl⟩ := assembleOp_failed_iff.mp h
    rfl
  · exact ⟨installProgram s P, assembleOp_installed_iff.mpr ⟨P, hP, hwf, rfl⟩, installProgram_status s P⟩

end Sys2Proof.Claims
end

section
/-! Settles the statement of 70_reset_and_hazards.md about a failed assemble (O50). -/

namespace Sys2Proof.Claims

open Sys2Proof Sys2Proof.Machine

/-- Settles O50: the two directions of the law that says when an assemble fails and what state it answers. -/
theorem failedAssembleChangesNothing : Obligations.FailedAssembleChangesNothing := by
  refine fun src s => ⟨fun e hload => assembleOp_failed_iff.mpr ⟨hload, rfl⟩, fun e t hfail => ?_⟩
  obtain ⟨-, hkept⟩ := assembleOp_failed_iff.mp hfail
  exact hkept

end Sys2Proof.Claims
end

section
/-! Settles the statements of 30_encoding.md on decoding (O1, O2, O3, O4, O6 to O9): the forms RV, RR, T, R and N beside
those above, the decoder on what the encoder writes, and what the decimal literals are. -/

namespace Sys2Proof

/-! ## The forms RV, RR, T, R and N (30_encoding.md R83, R89, R90) -/

theorem decodeRV_of_length_ne (L : Labels) (mk : Reg → Word → Instr) {ops : List Token} (h : ops.length ≠ 2) :
    decodeRV L mk ops = .fault .operandCount := by
  match ops, h with
  | [], _ | [_], _ | _ :: _ :: _ :: _, _ => rfl
  | [_, _], h => exact absurd rfl h

theorem decodeRR_of_length_ne (mk : Reg → Reg → Instr) {ops : List Token} (h : ops.length ≠ 2) :
    decodeRR mk ops = .fault .operandCount := by
  match ops, h with
  | [], _ | [_], _ | _ :: _ :: _ :: _, _ => rfl
  | [_, _], h => exact absurd rfl h

theorem decodeV_of_length_ne (L : Labels) (mk : Word → Instr) {ops : List Token} (h : ops.length ≠ 1) :
    decodeV L mk ops = .fault .operandCount := by
  match ops, h with
  | [], _ | _ :: _ :: _, _ => rfl
  | [_], h => exact absurd rfl h

theorem decodeR_of_length_ne (mk : Reg → Instr) {ops : List Token} (h : ops.length ≠ 1) :
    decodeR mk ops = .fault .operandCount := by
  match ops, h with
  | [], _ | _ :: _ :: _, _ => rfl
  | [_], h => exact absurd rfl h

theorem decodeN_of_length_ne (i : Instr) {ops : List Token} (h : ops.length ≠ 0) :
    decodeN i ops = .fault .operandCount := by
  match ops, h with
  | [], h => exact absurd rfl h
  | _ :: _, _ => rfl

/-- Past a register name, form RV answers as its value operand resolves. -/
theorem decodeRV_registerName (L : Labels) (mk : Reg → Word → Instr) (x : Reg) (b : Token) :
    decodeRV L mk [registerName x, b] = resolved (resolveVal L b) fun v => .op (mk x v) := by
  simp only [decodeRV, resolveReg_registerName, resolved_ok]

theorem decodeRR_registerNames (mk : Reg → Reg → Instr) (x y : Reg) :
    decodeRR mk [registerName x, registerName y] = .op (mk x y) := by
  simp only [decodeRR, resolveReg_registerName, resolved_ok]

/-- Form T answers as its value operand resolves. -/
theorem decodeV_singleton (L : Labels) (mk : Word → Instr) (a : Token) :
    decodeV L mk [a] = resolved (resolveVal L a) fun v => .op (mk v) := rfl

theorem decodeR_registerName (mk : Reg → Instr) (x : Reg) : decodeR mk [registerName x] = .op (mk x) := by
  simp only [decodeR, resolveReg_registerName, resolved_ok]

/-! ## Decoding what the encoder writes -/

/-- An encoded value resolves to it where no label is named like a literal (30_encoding.md R86). -/
theorem NoNumericLabel.resolveVal {L : Labels} (h : NoNumericLabel L) (v : Word) :
    resolveVal L (encodeVal v) = .ok v :=
  resolveVal_encodeVal (h.lookup v)

/-- The tokens of an unrecognised mnemonic are well-formed, and neither it nor its lower case is in the table
(30_encoding.md R91). -/
theorem wf_other_iff {m : Token} {ops : List Token} :
    (Instr.other m ops).wf = true ↔ (Token.wf m = true ∧ ∀ t ∈ ops, Token.wf t = true) ∧
      m ∉ tableMnemonics ∧ asciiLower m ∉ tableMnemonics := by
  simp [Instr.wf, unrecognised]

/-- The decoder inverts the encoder: each operand form on register names, encoded values and encoded memory operands
(30_encoding.md sections 3 and 4). -/
theorem decodeTokens_encode {i : Instr} {L : Labels} (hwf : i.wf = true) (hL : NoNumericLabel L) :
    decodeTokens L (encodeMnemonic i) (encodeOperands i) = .op i := by
  cases i with
  | add a b c | addu a b c | sub a b c | subu a b c | mul a b c | and a b c | or a b c | xor a b c | slt a b c =>
    exact decodeRRR_registerNames _ a b c
  | addi a b v | addiu a b v | sll a b v | srl a b v | slti a b v | beq a b v | bne a b v =>
    exact (decodeRRV_registerNames L _ a b _).trans (by rw [hL.resolveVal, resolved_ok])
  | lui a v | li a v | la a v =>
    exact (decodeRV_registerName L _ a _).trans (by rw [hL.resolveVal, resolved_ok])
  | move a b => exact decodeRR_registerNames _ a b
  | lw a off b | sw a off b | lb a off b | sb a off b =>
    exact (decodeRM_registerName _ a _).trans (by rw [resolveMem_encodeMem, resolved_ok])
  | j v | jal v =>
    exact (decodeV_singleton L _ _).trans (by rw [hL.resolveVal, resolved_ok])
  | jr a => exact decodeR_registerName _ a
  | syscall => rfl
  | other m ops =>
    obtain ⟨-, hm, hlower⟩ := wf_other_iff.mp hwf
    exact decodeTokens_other L ops hm hlower

/-- What the encoder writes is a well-formed record, for every constructor (30_encoding.md R71). -/
theorem encode_wf (i : Instr) : Laws.EncodedTokens.Statement i :=
  match i with
  | .add a b c => Laws.EncodedTokens.add a b c
  | .addu a b c => Laws.EncodedTokens.addu a b c
  | .sub a b c => Laws.EncodedTokens.sub a b c
  | .subu a b c => Laws.EncodedTokens.subu a b c
  | .addi a b v => Laws.EncodedTokens.addi a b v
  | .addiu a b v => Laws.EncodedTokens.addiu a b v
  | .mul a b c => Laws.EncodedTokens.mul a b c
  | .and a b c => Laws.EncodedTokens.and a b c
  | .or a b c => Laws.EncodedTokens.or a b c
  | .xor a b c => Laws.EncodedTokens.xor a b c
  | .sll a b v => Laws.EncodedTokens.sll a b v
  | .srl a b v => Laws.EncodedTokens.srl a b v
  | .slt a b c => Laws.EncodedTokens.slt a b c
  | .slti a b v => Laws.EncodedTokens.slti a b v
  | .lui a v => Laws.EncodedTokens.lui a v
  | .li a v => Laws.EncodedTokens.li a v
  | .la a v => Laws.EncodedTokens.la a v
  | .move a b => Laws.EncodedTokens.move a b
  | .lw a v b => Laws.EncodedTokens.lw a v b
  | .sw a v b => Laws.EncodedTokens.sw a v b
  | .lb a v b => Laws.EncodedTokens.lb a v b
  | .sb a v b => Laws.EncodedTokens.sb a v b
  | .beq a b v => Laws.EncodedTokens.beq a b v
  | .bne a b v => Laws.EncodedTokens.bne a b v
  | .j v => Laws.EncodedTokens.j v
  | .jal v => Laws.EncodedTokens.jal v
  | .jr a => Laws.EncodedTokens.jr a
  | .syscall => Laws.EncodedTokens.syscall
  | .other m ops => Laws.EncodedTokens.other m ops

/-- The written line of an instruction splits into its mnemonic and operands (30_encoding.md R79, R95). -/
theorem tokenise_encodeLine {i : Instr} (hwf : i.wf = true) :
    tokenise (encodeLine i) = encodeMnemonic i :: encodeOperands i := by
  have htokens := encode_wf i hwf 0 0
  simp only [Record.wf, encode, Bool.and_eq_true, List.all_eq_true] at htokens
  obtain ⟨hm, hops⟩ := htokens
  exact tokenise_joinOperands hm hops

/-! ## Decimal literals (30_encoding.md R87) -/

theorem digitValue_eq_some_iff {c : Char} {d : Nat} : digitValue c = some d ↔ d < 10 ∧ c = digitChar d := by
  have h0 : '0'.toNat = 48 := rfl
  have h9 : '9'.toNat = 57 := rfl
  constructor
  · intro h
    simp only [digitValue, h0, h9, Option.ite_none_right_eq_some, Option.some.injEq] at h
    obtain ⟨hrange, rfl⟩ := h
    refine ⟨by omega, ?_⟩
    rw [digitChar, h0, Nat.add_sub_cancel' hrange.1, Char.ofNat_toNat]
  · rintro ⟨hd, rfl⟩
    exact digitValue_digitChar hd

/-- Digits written most significant first: one more digit in front counts with the power of its place. -/
theorem digitsValue_cons (d : Nat) (ds : List Nat) :
    Claims.digitsValue (d :: ds) = d * 10 ^ ds.length + Claims.digitsValue ds := by
  rw [Claims.digitsValue, Claims.digitsValue, List.reverse_cons, Nat.ofDigits_append, Nat.ofDigits_singleton,
    List.length_reverse]
  ring

/-- The text of digits is read onto the value read so far, and no other text is read (30_encoding.md R87). -/
theorem readDigits_eq_some_iff {t : Text} {acc n : Nat} :
    readDigits t acc = some n ↔ ∃ ds : List Nat, (∀ d ∈ ds, d < 10) ∧ t = ds.map digitChar ∧
      n = acc * 10 ^ ds.length + Claims.digitsValue ds := by
  induction t generalizing acc with
  | nil => simp [readDigits, Claims.digitsValue, eq_comm]
  | cons c cs ih =>
    rw [readDigits]
    constructor
    · intro h
      split at h
      · next d hd =>
        obtain ⟨hlt, rfl⟩ := digitValue_eq_some_iff.mp hd
        obtain ⟨ds, hds, rfl, rfl⟩ := ih.mp h
        refine ⟨d :: ds, List.forall_mem_cons.mpr ⟨hlt, hds⟩, rfl, ?_⟩
        rw [digitsValue_cons, List.length_cons]
        ring
      · cases h
    · rintro ⟨ds, hds, ht, rfl⟩
      obtain ⟨d, ds, rfl, rfl, rfl⟩ := List.map_eq_cons_iff.mp ht.symm
      obtain ⟨hlt, hrest⟩ := List.forall_mem_cons.mp hds
      rw [digitValue_digitChar hlt]
      refine ih.mpr ⟨ds, hrest, rfl, ?_⟩
      rw [digitsValue_cons, List.length_cons]
      ring

/-- One or more digits, and their base-10 value (30_encoding.md R87). -/
theorem readNat_eq_some_iff {t : Text} {n : Nat} :
    readNat t = some n ↔ ∃ ds : List Nat, ds ≠ [] ∧ (∀ d ∈ ds, d < 10) ∧ t = ds.map digitChar ∧
      n = Claims.digitsValue ds := by
  simp only [readNat, Option.ite_none_left_eq_some, readDigits_eq_some_iff, Nat.zero_mul, Nat.zero_add]
  constructor
  · rintro ⟨hne, ds, hds, rfl, rfl⟩
    exact ⟨ds, by simpa using hne, hds, rfl, rfl⟩
  · rintro ⟨ds, hne, hds, rfl, rfl⟩
    exact ⟨by simpa using hne, ds, hds, rfl, rfl⟩

/-- An integer is read from digits, or from a minus and digits (30_encoding.md R87). -/
theorem readInt_eq_some_iff {t : Text} {n : Int} :
    readInt t = some n ↔ (∃ k : Nat, readNat t = some k ∧ n = k) ∨
      ∃ cs, t = '-' :: cs ∧ ∃ k : Nat, readNat cs = some k ∧ n = -(k : Int) := by
  match t with
  | [] => simp [readInt, readNat]
  | c :: cs =>
    by_cases hc : c = '-'
    · subst hc
      have hminus : readNat ('-' :: cs) = none := rfl
      cases hcs : readNat cs <;> simp [readInt, hminus, hcs, eq_comm]
    · cases hcs : readNat (c :: cs) <;> simp [readInt, hc, hcs, eq_comm]

/-- A literal is an integer in range, wrapped (30_encoding.md R87). -/
theorem literalValue_eq_some_iff {t : Token} {w : Word} :
    literalValue t = some w ↔ ∃ n : Int, readInt t = some n ∧ (-2 ^ 31 ≤ n ∧ n ≤ 2 ^ 32 - 1) ∧ w = wrap32 n := by
  rw [literalValue]
  cases readInt t with
  | none => simp
  | some n => simp [literalInRange, eq_comm (a := w)]

/-! ## The 28 mnemonics and the refusal of a case variant (30_encoding.md R91) -/

theorem tableMnemonics_eq_countTable : tableMnemonics = Claims.countTable.map fun p => p.1.toList := by decide

/-- An operand's resolution refuses nothing: where the whole is refused, what follows the operand refuses. -/
theorem resolved_eq_refused_iff {α : Type} {x : Except FaultKind α} {k : α → Decoded} {r : DecodeRefusal} :
    resolved x k = .refused r ↔ ∃ a, x = .ok a ∧ k a = .refused r := by
  cases x <;> simp

/-! Each form's answers are an operation and the faults of its operands, no refusal. -/

theorem decodeRRR_ne_refused (mk : Reg → Reg → Reg → Instr) (ops : List Token) (r : DecodeRefusal) :
    decodeRRR mk ops ≠ .refused r := by
  unfold decodeRRR
  split <;> simp [resolved_eq_refused_iff]

theorem decodeRRV_ne_refused (L : Labels) (mk : Reg → Reg → Word → Instr) (ops : List Token) (r : DecodeRefusal) :
    decodeRRV L mk ops ≠ .refused r := by
  unfold decodeRRV
  split <;> simp [resolved_eq_refused_iff]

theorem decodeRV_ne_refused (L : Labels) (mk : Reg → Word → Instr) (ops : List Token) (r : DecodeRefusal) :
    decodeRV L mk ops ≠ .refused r := by
  unfold decodeRV
  split <;> simp [resolved_eq_refused_iff]

theorem decodeRR_ne_refused (mk : Reg → Reg → Instr) (ops : List Token) (r : DecodeRefusal) :
    decodeRR mk ops ≠ .refused r := by
  unfold decodeRR
  split <;> simp [resolved_eq_refused_iff]

theorem decodeRM_ne_refused (mk : Reg → Word → Reg → Instr) (ops : List Token) (r : DecodeRefusal) :
    decodeRM mk ops ≠ .refused r := by
  unfold decodeRM
  split <;> simp [resolved_eq_refused_iff]

theorem decodeV_ne_refused (L : Labels) (mk : Word → Instr) (ops : List Token) (r : DecodeRefusal) :
    decodeV L mk ops ≠ .refused r := by
  unfold decodeV
  split <;> simp [resolved_eq_refused_iff]

theorem decodeR_ne_refused (mk : Reg → Instr) (ops : List Token) (r : DecodeRefusal) :
    decodeR mk ops ≠ .refused r := by
  unfold decodeR
  split <;> simp [resolved_eq_refused_iff]

theorem decodeN_ne_refused (i : Instr) (ops : List Token) (r : DecodeRefusal) :
    decodeN i ops ≠ .refused r := by
  unfold decodeN
  split <;> simp

/-- No operand form of the dispatch table refuses: its answers are an operation and the faults of its operands
(30_encoding.md R89, R90). -/
theorem opcodeTable_ne_refused (L : Labels) (ops : List Token) (r : DecodeRefusal) :
    ∀ p ∈ opcodeTable L, p.2 ops ≠ .refused r := by
  simp only [opcodeTable, List.forall_mem_append, List.forall_mem_cons, ne_eq, decodeRRR_ne_refused,
    decodeRRV_ne_refused, decodeRV_ne_refused, decodeRR_ne_refused, decodeRM_ne_refused, decodeV_ne_refused,
    decodeR_ne_refused, decodeN_ne_refused, not_false_eq_true, List.not_mem_nil, false_imp_iff, implies_true, and_self]

/-- The decoder refuses a case variant of a table mnemonic and nothing else (30_encoding.md R91). -/
theorem decodeTokens_refused {L : Labels} {m : Token} {ops : List Token} {r : DecodeRefusal}
    (h : decodeTokens L m ops = .refused r) : m ∉ tableMnemonics ∧ asciiLower m ∈ tableMnemonics := by
  cases hform : lookupToken m (opcodeTable L) with
  | some form =>
    rw [decodeTokens, hform] at h
    exact absurd h (opcodeTable_ne_refused L ops r _ (mem_of_lookupToken hform))
  | none =>
    have hm := (lookup_opcodeTable_none_iff L m).mp hform
    by_contra hlower
    rw [decodeTokens_other L ops hm fun h' => hlower ⟨hm, h'⟩] at h
    cases h

end Sys2Proof

namespace Sys2Proof.Claims

open Sys2Proof Sys2Proof.Machine

/-- Settles O1: the record of an instruction holds its encoded tokens. -/
theorem decodeOfEncodeIsTheInstruction : Obligations.DecodeOfEncodeIsTheInstruction :=
  fun _ _ _ _ hwf hL => decodeTokens_encode hwf hL

/-- Settles O2: the written line splits into the encoded tokens. -/
theorem sourceLineDecodesToTheInstruction : Obligations.SourceLineDecodesToTheInstruction := by
  intro i L hwf hL
  rw [decodeLine, tokenise_encodeLine hwf]
  exact congrArg some (decodeTokens_encode hwf hL)

/-- Settles O3: each record is evaluated. -/
theorem handWrittenRecordsDecode : Obligations.HandWrittenRecordsDecode := by
  unfold Obligations.HandWrittenRecordsDecode
  decide

/-- Settles O4: the names stand in the register table, which is all that `reg(k)` looks into. -/
theorem registerTokensAreTheThirtyTwoNames : Obligations.RegisterTokensAreTheThirtyTwoNames :=
  ⟨by decide, resolveReg_ok_iff, fun _ => resolveReg_error⟩

/-- Settles O6: the digits after the optional minus are the ones `readNat` reads. -/
theorem decimalLiteralGrammar : Obligations.DecimalLiteralGrammar := by
  intro t w
  rw [literalValue_eq_some_iff]
  constructor
  · rintro ⟨n, hn, ⟨hlow, hhigh⟩, rfl⟩
    obtain ⟨k, hk, rfl⟩ | ⟨cs, rfl, k, hk, rfl⟩ := readInt_eq_some_iff.mp hn <;>
      obtain ⟨ds, hne, hds, rfl, rfl⟩ := readNat_eq_some_iff.mp hk
    · exact ⟨false, ds, _, hne, hds, rfl, rfl, hlow, hhigh, rfl⟩
    · exact ⟨true, ds, _, hne, hds, rfl, rfl, hlow, hhigh, rfl⟩
  · rintro ⟨neg, ds, n, hne, hds, rfl, rfl, hlow, hhigh, rfl⟩
    refine ⟨_, readInt_eq_some_iff.mpr ?_, ⟨hlow, hhigh⟩, rfl⟩
    have hread := readNat_eq_some_iff.mpr ⟨ds, hne, hds, rfl, rfl⟩
    cases neg with
    | false => exact .inl ⟨_, hread, rfl⟩
    | true => exact .inr ⟨_, rfl, _, hread, rfl⟩

/-- Settles O7: what `mem(k)` accepts, in both directions, and its only fault. -/
theorem memoryTokensResolve : Obligations.MemoryTokensResolve :=
  ⟨fun _ _ _ => ⟨resolveMem_ok, resolveMem_of_isMemoryToken⟩, fun _ => resolveMem_of_not_isMemoryToken⟩

/-! ## The forms in the claims' terms -/

/-- A mnemonic that the dispatch table decodes by `decodeRV` has the form RV. -/
theorem formRV_of_dispatch {m : String} {mk : Reg → Word → Instr}
    (hm : ∀ L, decodeTokens L m.toList = decodeRV L mk) : FormRV m mk := by
  refine ⟨fun L ops hlen => ?_, fun L a b x v ha hb => ?_, fun L a b ha => ?_, fun L a b x ha hb => ?_⟩ <;> rw [hm]
  · exact decodeRV_of_length_ne L mk hlen
  · rw [ha, decodeRV_registerName, resolveVal_of_hasValue hb, resolved_ok]
  · exact resolved_of_noReg ha _
  · rw [ha, decodeRV_registerName, resolveVal_of_hasNoValue hb, resolved_error]

/-- A mnemonic that the dispatch table decodes by `decodeRR` has the form RR. -/
theorem formRR_of_dispatch {m : String} {mk : Reg → Reg → Instr} (hm : ∀ L, decodeTokens L m.toList = decodeRR mk) :
    FormRR m mk := by
  refine ⟨fun L ops hlen => ?_, fun L a b x y ha hb => ?_, fun L a b hbad => ?_⟩ <;> rw [hm]
  · exact decodeRR_of_length_ne mk hlen
  · rw [ha, hb, decodeRR_registerNames]
  · obtain ha | hb := hbad
    · exact resolved_of_noReg ha _
    · exact resolved_reg_badRegister a fun _ => resolved_of_noReg hb _

/-- A mnemonic that the dispatch table decodes by `decodeV` has the form T. -/
theorem formT_of_dispatch {m : String} {mk : Word → Instr} (hm : ∀ L, decodeTokens L m.toList = decodeV L mk) :
    FormT m mk := by
  refine ⟨fun L ops hlen => ?_, fun L a v ha => ?_, fun L a ha => ?_⟩ <;> rw [hm]
  · exact decodeV_of_length_ne L mk hlen
  · rw [decodeV_singleton, resolveVal_of_hasValue ha, resolved_ok]
  · rw [decodeV_singleton, resolveVal_of_hasNoValue ha, resolved_error]

/-- A mnemonic that the dispatch table decodes by `decodeR` has the form R. -/
theorem formR_of_dispatch {m : String} {mk : Reg → Instr} (hm : ∀ L, decodeTokens L m.toList = decodeR mk) :
    FormR m mk := by
  refine ⟨fun L ops hlen => ?_, fun L a x ha => ?_, fun L a ha => ?_⟩ <;> rw [hm]
  · exact decodeR_of_length_ne mk hlen
  · rw [ha, decodeR_registerName]
  · exact resolved_of_noReg ha _

/-- A mnemonic that the dispatch table decodes by `decodeN` has the form N. -/
theorem formN_of_dispatch {m : String} {i : Instr} (hm : ∀ L, decodeTokens L m.toList = decodeN i) : FormN m i := by
  refine ⟨fun L ops hlen => ?_, fun L => ?_⟩ <;> rw [hm]
  · exact decodeN_of_length_ne i hlen
  · rfl

/-- The mnemonics of the forms RRV, RRS and RRT (30_encoding.md R83). -/
theorem formRRV_of_mem {m : String} (h : m ∈ ["addi", "addiu", "slti", "sll", "srl", "beq", "bne"]) :
    ∃ mk, FormRRV m mk := by
  revert m
  simp only [List.forall_mem_cons]
  exact ⟨⟨_, formRRV_of_dispatch decodeTokens_addi⟩, ⟨_, formRRV_of_dispatch decodeTokens_addiu⟩,
    ⟨_, formRRV_of_dispatch decodeTokens_slti⟩, ⟨_, formRRV_of_dispatch decodeTokens_sll⟩,
    ⟨_, formRRV_of_dispatch decodeTokens_srl⟩, ⟨_, formRRV_of_dispatch decodeTokens_beq⟩,
    ⟨_, formRRV_of_dispatch decodeTokens_bne⟩, nofun⟩

/-- The mnemonics of the form RV (30_encoding.md R83). -/
theorem formRV_of_mem {m : String} (h : m ∈ ["lui", "li", "la"]) : ∃ mk, FormRV m mk := by
  revert m
  simp only [List.forall_mem_cons]
  exact ⟨⟨_, formRV_of_dispatch decodeTokens_lui⟩, ⟨_, formRV_of_dispatch decodeTokens_li⟩,
    ⟨_, formRV_of_dispatch decodeTokens_la⟩, nofun⟩

/-- The mnemonics of the form RM (30_encoding.md R83). -/
theorem formRM_of_mem {m : String} (h : m ∈ ["lw", "sw", "lb", "sb"]) : ∃ mk, FormRM m mk := by
  revert m
  simp only [List.forall_mem_cons]
  exact ⟨⟨_, formRM_of_dispatch decodeTokens_lw⟩, ⟨_, formRM_of_dispatch decodeTokens_sw⟩,
    ⟨_, formRM_of_dispatch decodeTokens_lb⟩, ⟨_, formRM_of_dispatch decodeTokens_sb⟩, nofun⟩

/-- Settles O9: each clause is the fault clause of the mnemonic's form. -/
theorem firstFailingOperandIsReported : Obligations.FirstFailingOperandIsReported := by
  refine fun L a b c => ⟨fun m hm hbad => ?_, fun m hm x y ha hb hc => ?_, fun m hm ha => ?_, fun m hm x ha hb => ?_,
    fun m hm x ha hb => ?_⟩
  · obtain ⟨_, -, -, hreg, -⟩ := formRRV_of_mem hm
    exact hreg L a b c hbad
  · obtain ⟨_, -, -, -, hval⟩ := formRRV_of_mem hm
    exact hval L a b c x y ha hb hc
  · obtain hm | hm : m ∈ ["lui", "li", "la"] ∨ m ∈ ["lw", "sw", "lb", "sb"] := List.mem_append.mp hm
    · obtain ⟨_, -, -, hreg, -⟩ := formRV_of_mem hm
      exact hreg L a b ha
    · obtain ⟨_, -, -, hreg, -⟩ := formRM_of_mem hm
      exact hreg L a b ha
  · obtain ⟨_, -, -, -, hval⟩ := formRV_of_mem hm
    exact hval L a b x ha hb
  · obtain ⟨_, -, -, -, hmem⟩ := formRM_of_mem hm
    exact hmem L a b x ha hb

/-- Settles O8: each mnemonic's form checks the count first. -/
theorem operandCountIsCheckedFirst : Obligations.OperandCountIsCheckedFirst := by
  unfold Obligations.OperandCountIsCheckedFirst
  simp +contextual [countTable, decodeRRR_of_length_ne, decodeRRV_of_length_ne, decodeRV_of_length_ne,
    decodeRR_of_length_ne, decodeRM_of_length_ne, decodeV_of_length_ne, decodeR_of_length_ne, decodeN_of_length_ne]

/-- A mnemonic is one of the 28 exactly where the dispatch table has it. -/
theorem inTable_iff {m : Token} : InTable m ↔ m ∈ tableMnemonics := by
  rw [tableMnemonics_eq_countTable, List.mem_map, InTable]

end Sys2Proof.Claims
end

section
/-! Settles the statements on the step (O11, O12, O13, O15, O18): which step refuses, faults, ends or runs an instruction
(10_state.md section 5a, 30_encoding.md section 4, 60_exceptions.md section 2). -/

namespace Sys2Proof.Machine

/-- A step of a case-variant mnemonic is refused (30_encoding.md R91). -/
theorem step_of_caseVariant {s : State} {I : Record} (hrun : s.status = .running)
    (hI : fetch s.program s.pc = some I) (hm : I.mnemonic ∉ tableMnemonics)
    (hlower : asciiLower I.mnemonic ∈ tableMnemonics) : step s = .refused .caseVariantMnemonic := by
  rw [step_of_fetch hrun hI, execute, decode, decodeTokens_caseVariant _ _ hm hlower]

/-- No step stops with a fault (60_exceptions.md R203). -/
theorem step_not_fault (s : State) (f : Fault) : step s ≠ .fault f := nomatch f

/-- What a refused step was about to do: decode a case variant, or execute what `exec` refuses (60_exceptions.md
R206). -/
theorem step_refused_cases {s : State} {r : Refusal} (h : step s = .refused r) :
    s.status = .running ∧ ∃ I, fetch s.program s.pc = some I ∧
      (r = .caseVariantMnemonic ∧ (∃ q, decode I s.program.labels = .refused q) ∨
       ∃ i, decode I s.program.labels = .op i ∧ exec i s = .refused r) := by
  by_cases hrun : s.status = .running
  · refine ⟨hrun, ?_⟩
    cases hI : fetch s.program s.pc with
    | none => rw [step_of_missing hrun hI] at h; cases h
    | some I =>
      refine ⟨I, rfl, ?_⟩
      cases hd : decode I s.program.labels with
      | op i => rw [step_of_op hrun hI hd] at h; exact .inr ⟨i, rfl, h⟩
      | fault k => rw [step_of_fault hrun hI hd] at h; cases h
      | refused q =>
        rw [step_of_fetch hrun hI, execute, hd] at h
        cases q
        cases h
        exact .inl ⟨rfl, _, rfl⟩
  · rw [step_of_stopped hrun] at h; cases h

end Sys2Proof.Machine

namespace Sys2Proof.Claims

open Sys2Proof Sys2Proof.Machine

/-- Settles O11: the claims' 28 mnemonics are the dispatch table's. -/
theorem caseVariantMnemonicIsRefused : Obligations.CaseVariantMnemonicIsRefused :=
  fun _ _ hrun hI hm hlower => step_of_caseVariant hrun hI (mt inTable_iff.mpr hm) (inTable_iff.mp hlower)

/-- Settles O12: the step law of a decoded operation. -/
theorem stepRunsTheDecodedInstruction : Obligations.StepRunsTheDecodedInstruction :=
  fun _ _ _ => step_of_op

/-- Settles O13: the two cases in which a step fetches nothing. -/
theorem stepOfStoppedAndOfMissingInstruction : Obligations.StepOfStoppedAndOfMissingInstruction :=
  ⟨fun _ => step_of_stopped, fun _ hrun hmiss => step_of_missing hrun (fetch_none_iff.mpr hmiss)⟩

/-- Settles O15: the message is the one `raiseFault` draws. -/
theorem runtimeFaultCommitsNothing : Obligations.RuntimeFaultCommitsNothing :=
  fun s I k hrun hI hk => ⟨Config.faultMessage s.draws k I, step_of_fault hrun hI hk⟩

/-- Settles O18: the decoder refuses case variants only, and `exec` shifts out of range only. -/
theorem stepRefusesOnlyWhatTheSpecRefuses : Obligations.StepRefusesOnlyWhatTheSpecRefuses := by
  refine ⟨step_not_fault, fun s r h => ?_⟩
  obtain ⟨hrun, I, hI, ⟨rfl, q, hq⟩ | ⟨i, hi, hexec⟩⟩ := step_refused_cases h
  · obtain ⟨hm, hlower⟩ := decodeTokens_refused hq
    exact ⟨hrun, I, hI, .inl ⟨rfl, mt inTable_iff.mp hm, inTable_iff.mpr hlower⟩⟩
  · obtain ⟨rfl, rd, rs, sh, hsh, rfl | rfl⟩ := exec_refused hexec
    · exact ⟨hrun, I, hI, .inr ⟨rfl, rd, rs, sh, hsh, .inl hi⟩⟩
    · exact ⟨hrun, I, hI, .inr ⟨rfl, rd, rs, sh, hsh, .inr hi⟩⟩

end Sys2Proof.Claims
end

section
/-! Settles the statements on what an instruction and a step keep (O19, O20, O22 to O25): the invariant, the output,
memory, the registers and the pc. -/

namespace Sys2Proof

open Sys2Proof.Machine

/-! ## The invariant -/

/-- Every instruction keeps memory in canonical form (20_memory.md R50). -/
theorem exec_mem_wf {i : Instr} {s t : State} (hs : Memory.wf s.mem) (h : exec i s = .next t) : Memory.wf t.mem := by
  obtain ⟨rd, v, rfl⟩ | ⟨rt, off, base, -, rfl⟩ | ⟨rt, off, base, -, rfl⟩ | ⟨w, rfl⟩ | ⟨w, -, rfl⟩ | ⟨-, rfl⟩ :=
    exec_next_cases h
  · rwa [State.complete_mem]
  · exact writeWord_wf hs _ _
  · exact writeByte_wf hs _ _
  · exact hs
  · rwa [State.setPc_mem, State.setReg_mem]
  · obtain ⟨-, -, hmem, -⟩ := syscallService_frame (s.reg Config.v0) (s.reg Config.a0) s
    rwa [State.advance_mem, hmem]

/-- No instruction writes the storage of register 0 (10_state.md R22). -/
theorem exec_regs_zero {i : Instr} {s t : State} (h : exec i s = .next t) : t.regs[0] = s.regs[0] := by
  obtain ⟨rd, v, rfl⟩ | ⟨rt, off, base, -, rfl⟩ | ⟨rt, off, base, -, rfl⟩ | ⟨w, rfl⟩ | ⟨w, -, rfl⟩ | ⟨-, rfl⟩ :=
    exec_next_cases h
  · exact s.complete_regs_zero rd v
  · rfl
  · rfl
  · rfl
  · exact s.setReg_regs_zero Config.ra s.nextPc
  · obtain ⟨hregs, -⟩ := syscallService_frame (s.reg Config.v0) (s.reg Config.a0) s
    rw [State.advance_regs, hregs]

/-- The invariant reads memory, the storage of register 0 and the Program, and nothing else. -/
theorem StateInv.congr {s t : State} (hs : StateInv s) (hmem : t.mem = s.mem) (hregs : t.regs = s.regs)
    (hprogram : t.program = s.program) : StateInv t := by
  rwa [StateInv, hmem, hregs, hprogram]

/-- Every instruction keeps the invariant. -/
theorem exec_keeps_stateInv {i : Instr} {s t : State} (hs : StateInv s) (h : exec i s = .next t) : StateInv t := by
  obtain ⟨hmem, hzero, hprogram⟩ := hs
  exact ⟨exec_mem_wf hmem h, (exec_regs_zero h).trans hzero, (exec_program h).symm ▸ hprogram⟩

/-- Every step keeps the invariant: an instruction does, and the other steps touch nothing it reads. -/
theorem step_keeps_stateInv {s t : State} (hs : StateInv s) (h : step s = .next t) : StateInv t := by
  obtain ⟨-, rfl⟩ | ⟨-, ⟨-, rfl⟩ | ⟨I, -, ⟨i, -, hexec⟩ | ⟨k, -, rfl⟩⟩⟩ := step_next_cases h
  · exact hs
  · exact hs.congr rfl rfl rfl
  · exact exec_keeps_stateInv hs hexec
  · exact hs.congr rfl rfl rfl

/-- The storage of register 0 at reset (10_state.md R42). -/
theorem resetRegs_zero : resetRegs[0] = 0 := by
  simp [resetRegs]

/-- Loading a well-formed Program gives the invariant, from any state. -/
theorem installProgram_stateInv (s : State) {P : Program} (hP : P.wf = true) : StateInv (installProgram s P) :=
  ⟨writeImage_wf reset_memory_wf P.data, resetRegs_zero, hP⟩

/-! ## Output and memory -/

/-- An instruction appends nothing to the output, unless it is a printing syscall (10_state.md R30, 44_system.md R181,
R182, R184). -/
theorem exec_out {i : Instr} {s t : State} (h : exec i s = .next t) :
    t.out = s.out ∨ i = .syscall ∧ (s.reg 2 = 1 ∨ s.reg 2 = 4 ∨ s.reg 2 = 11) ∧ ∃ bytes, t.out = s.out ++ bytes := by
  obtain ⟨rd, v, rfl⟩ | ⟨rt, off, base, -, rfl⟩ | ⟨rt, off, base, -, rfl⟩ | ⟨w, rfl⟩ | ⟨w, -, rfl⟩ | ⟨hi, rfl⟩ :=
    exec_next_cases h
  · exact .inl (s.complete_out rd v)
  · exact .inl rfl
  · exact .inl rfl
  · exact .inl rfl
  · exact .inl (s.setReg_out Config.ra s.nextPc)
  · obtain ⟨hcode, e⟩ | ⟨hcode, e⟩ | ⟨-, e⟩ | ⟨hcode, e⟩ | ⟨-, e⟩ :=
      syscallService_cases (s.reg Config.v0) (s.reg Config.a0) s <;> rw [e]
    · exact .inr ⟨hi, .inl hcode, _, rfl⟩
    · exact .inr ⟨hi, .inr (.inl hcode), _, rfl⟩
    · exact .inl rfl
    · exact .inr ⟨hi, .inr (.inr hcode), _, rfl⟩
    · exact .inl rfl

/-- A step appends nothing to the output, unless it runs a printing syscall. -/
theorem step_out {s t : State} (h : step s = .next t) :
    t.out = s.out ∨ Claims.AboutToRun s .syscall ∧ (s.reg 2 = 1 ∨ s.reg 2 = 4 ∨ s.reg 2 = 11) ∧
      ∃ bytes, t.out = s.out ++ bytes := by
  obtain ⟨-, rfl⟩ | ⟨hrun, ⟨-, rfl⟩ | ⟨I, hI, ⟨i, hi, hexec⟩ | ⟨k, -, rfl⟩⟩⟩ := step_next_cases h
  · exact .inl rfl
  · exact .inl rfl
  · obtain hkept | ⟨rfl, hprints⟩ := exec_out hexec
    · exact .inl hkept
    · exact .inr ⟨⟨hrun, I, hI, hi⟩, hprints⟩
  · exact .inl rfl

/-- A word write reaches the four addresses from its own on, modulo 2^32 (20_memory.md R55). -/
theorem readByte_writeWord_of_ne {m : Memory} {a b v : Word} (h : ∀ k < 4, b ≠ a + BitVec.ofNat 32 k) :
    readByte (writeWord m a v) b = readByte m b := by
  have h0 : b ≠ a := by simpa using h 0 (by decide)
  have h1 : b ≠ a + 1 := h 1 (by decide)
  have h2 : b ≠ a + 2 := h 2 (by decide)
  have h3 : b ≠ a + 3 := h 3 (by decide)
  rw [readByte_writeWord, if_neg h0, if_neg h1, if_neg h2, if_neg h3]

/-- An instruction changes no byte but those it stores to (20_memory.md section 3). -/
theorem exec_readByte_of_not_storesTo {i : Instr} {s t : State} {a : Word} (h : exec i s = .next t)
    (ha : ¬ Claims.StoresTo i s a) : readByte t.mem a = readByte s.mem a := by
  obtain ⟨rd, v, rfl⟩ | ⟨rt, off, base, rfl, rfl⟩ | ⟨rt, off, base, rfl, rfl⟩ | ⟨w, rfl⟩ | ⟨w, -, rfl⟩ | ⟨-, rfl⟩ :=
    exec_next_cases h
  · rw [State.complete_mem]
  · exact readByte_writeWord_of_ne fun k hk heq => ha ⟨k, hk, heq⟩
  · exact readByte_writeByte_ne s.mem _ ha
  · rfl
  · rw [State.setPc_mem, State.setReg_mem]
  · obtain ⟨-, -, hmem, -⟩ := syscallService_frame (s.reg Config.v0) (s.reg Config.a0) s
    rw [State.advance_mem, hmem]

end Sys2Proof

namespace Sys2Proof.Machine

/-! ## Branches (43_control.md R171, R172) -/

theorem wordsEqual_eq_true_iff {a b : Word} : wordsEqual a b = true ↔ a = b := beq_iff_eq

/-- A branch sets the pc, to the target or to the next instruction. -/
theorem branchIf_eq (taken : Bool) (target : Word) (s : State) :
    branchIf taken target s = .next { s with pc := if taken then target else wrap32 (s.pc.toNat + 4) } := by
  cases taken with
  | true => rfl
  | false => rw [branchIf, State.advance_eq_wrap32]; rfl

theorem exec_beq (rs rt : Reg) (target : Word) (s : State) :
    exec (.beq rs rt target) s =
      .next { s with pc := if s.reg rs = s.reg rt then target else wrap32 (s.pc.toNat + 4) } := by
  refine (branchIf_eq _ target s).trans ?_
  rw [if_congr wordsEqual_eq_true_iff rfl rfl]

theorem exec_bne (rs rt : Reg) (target : Word) (s : State) :
    exec (.bne rs rt target) s =
      .next { s with pc := if s.reg rs = s.reg rt then wrap32 (s.pc.toNat + 4) else target } := by
  refine (branchIf_eq _ target s).trans ?_
  have hne : (!wordsEqual (s.reg rs) (s.reg rt)) = true ↔ ¬ s.reg rs = s.reg rt := by
    rw [Bool.not_eq_true', ← Bool.not_eq_true, wordsEqual_eq_true_iff]
  rw [if_congr hne rfl rfl, ite_not]

end Sys2Proof.Machine

namespace Sys2Proof.Claims

open Sys2Proof Sys2Proof.Machine

/-- Settles O19: `step_keeps_stateInv`. -/
theorem stepKeepsTheInvariant : Obligations.StepKeepsTheInvariant := fun _ _ => step_keeps_stateInv

/-- Settles O20: reset is decided field by field, and a load writes its image on a reset machine. -/
theorem resetAndLoadMeetTheInvariant : Obligations.ResetAndLoadMeetTheInvariant :=
  ⟨⟨reset_memory_wf, resetRegs_zero, by decide⟩, fun s P hP =>
    ⟨installProgram s P, loadProgram_installed_iff.mpr ⟨hP, rfl⟩, installProgram_stateInv s hP⟩⟩

/-- Settles O22: the bytes that `step_out` gives, none where nothing is printed. -/
theorem outputOnlyGrows : Obligations.OutputOnlyGrows := by
  refine ⟨fun s t h => ?_, resetOp_out⟩
  obtain hkept | ⟨hrun, hcode, bytes, hbytes⟩ := step_out h
  · exact ⟨[], by rw [hkept, List.append_nil], fun hne => absurd rfl hne⟩
  · exact ⟨bytes, hbytes, fun _ => ⟨hrun, hcode⟩⟩

/-- Settles O23: a step that changes a byte runs an instruction, which stores there. -/
theorem memoryChangesOnlyWhereStored : Obligations.MemoryChangesOnlyWhereStored := by
  intro s t a h hne
  obtain ⟨-, rfl⟩ | ⟨hrun, ⟨-, rfl⟩ | ⟨I, hI, ⟨i, hi, hexec⟩ | ⟨k, -, rfl⟩⟩⟩ := step_next_cases h
  · exact absurd rfl hne
  · exact absurd rfl hne
  · exact ⟨i, ⟨hrun, I, hI, hi⟩, not_not.mp fun ha => hne (exec_readByte_of_not_storesTo hexec ha)⟩
  · exact absurd rfl hne

/-- Settles O24: `exec_writesItsDestination` away from the destination. -/
theorem onlyTheDestinationRegisterChanges : Obligations.OnlyTheDestinationRegisterChanges := by
  refine fun i s t h => ⟨State.reg_zero t, fun r hr => ?_⟩
  obtain ⟨v, hv⟩ := exec_writesItsDestination h
  rw [hv r, if_neg fun ⟨hdest, _⟩ => hr hdest]

/-- Settles O25: a writing instruction, a store, a syscall and an unrecognised mnemonic advance, and each transfer sets
the pc as `pcAfter` says. -/
theorem pcAfterEveryInstruction : Obligations.PcAfterEveryInstruction := by
  intro i s t h
  cases i with
  | sll rd rs sh | srl rd rs sh =>
    rw [aluShift_next h, State.complete_pc]
    exact s.nextPc_eq_wrap32
  | add rd _ _ | addu rd _ _ | sub rd _ _ | subu rd _ _ | addi rd _ _ | addiu rd _ _ | mul rd _ _ | and rd _ _
  | or rd _ _ | xor rd _ _ | slt rd _ _ | slti rd _ _ | lui rd _ | li rd _ | la rd _ | move rd _ | lw rd _ _
  | lb rd _ _ =>
    cases h
    rw [State.complete_pc]
    exact s.nextPc_eq_wrap32
  | sw _ _ _ | sb _ _ _ | other _ _ => cases h; exact s.nextPc_eq_wrap32
  | syscall =>
    cases h
    obtain ⟨-, hpc, -⟩ := syscallService_frame (s.reg Config.v0) (s.reg Config.a0) s
    rw [State.advance_pc, hpc]
    exact s.nextPc_eq_wrap32
  | beq rs rt w => rw [exec_beq] at h; cases h; rfl
  | bne rs rt w => rw [exec_bne] at h; cases h; rfl
  | j w | jal w | jr w => cases h; rfl

end Sys2Proof.Claims
end

section
/-! Settles the statements of 40_arithmetic_logic.md, 41_pseudo_moves.md, 43_control.md and 44_system.md on single
instructions (O10, O29, O32, O34, O35, O40 to O45). -/

namespace Sys2Proof.Machine

/-! ## Shifts and the upper immediate (40_arithmetic_logic.md R120, R132, R133, R136) -/

theorem wrap32_natCast (n : Nat) : wrap32 (n : Int) = BitVec.ofNat 32 n := BitVec.ofInt_natCast 32 n

theorem alu_sll_eq_wrap32 (a b : Word) : alu .sll a b = wrap32 (a.toNat * 2 ^ b.toNat) := by
  have hshift : alu .sll a b = BitVec.ofNat 32 (a.toNat * 2 ^ b.toNat) := by
    rw [alu, ← Nat.shiftLeft_eq]
    rfl
  rw [hshift, ← wrap32_natCast]
  push_cast
  rfl

theorem alu_srl_eq_wrap32 (a b : Word) : alu .srl a b = wrap32 (a.toNat / 2 ^ b.toNat) := by
  rw [← wrap32_toNat (alu .srl a b), alu, BitVec.toNat_ushiftRight, Nat.shiftRight_eq_div_pow]
  push_cast
  rfl

theorem alu_lui_eq_wrap32 (a b : Word) : alu .lui a b = wrap32 (b.toNat * 2 ^ 16) :=
  alu_sll_eq_wrap32 b 16

/-! ## Control transfer and unrecognised mnemonics -/

theorem exec_other (m : Token) (ops : List Token) (s : State) : exec (.other m ops) s = .next s.advance := rfl

/-! ## The syscall services (44_system.md R181 to R183) -/

/-- A syscall is its service and then the advance, in the spec's register numbers and wrapping (44_system.md R180). -/
theorem exec_syscall_of_code {s : State} {code : Word} (h : s.reg 2 = code) :
    exec .syscall s = .next { syscallService code (s.reg 4) s with pc := wrap32 (s.pc.toNat + 4) } := by
  obtain ⟨-, hpc, -⟩ := syscallService_frame code (s.reg 4) s
  rw [exec_syscall, Config.v0, h, Config.a0, State.advance_eq_wrap32, hpc]

theorem syscallService_printInt (arg : Word) (s : State) : syscallService 1 arg s = s.emit (printInt arg) := rfl

theorem syscallService_printString (arg : Word) (s : State) :
    syscallService 4 arg s = s.emit (cstring s.mem Config.printStringCap arg) := rfl

/-- The digits of a number are Mathlib's, the most significant first. -/
theorem decimalDigits_eq_digits {fuel n : Nat} (h : n < 10 ^ fuel) (hn : n ≠ 0) :
    decimalDigits fuel n = (Nat.digits 10 n).reverse.map digitChar := by
  induction fuel generalizing n with
  | zero => exact absurd (Nat.lt_one_iff.mp h) hn
  | succ f ih =>
    rw [decimalDigits]
    split
    · next hlt => rw [Nat.digits_of_lt 10 n hn hlt]; rfl
    · next hge =>
      have hdiv : n / 10 < 10 ^ f := by rw [pow_succ] at h; omega
      rw [ih hdiv (by omega), Nat.digits_def' (by decide) (Nat.pos_of_ne_zero hn), List.reverse_cons, List.map_append]
      rfl

theorem charByte_digitChar {d : Nat} (h : d < 10) : charByte (digitChar d) = BitVec.ofNat 8 (48 + d) := by
  interval_cases d <;> rfl

/-- The bytes of the digits of a number (44_system.md R181). -/
theorem map_charByte_decimalDigits {fuel n : Nat} (h : n < 10 ^ fuel) (hn : n ≠ 0) :
    (decimalDigits fuel n).map charByte = (Nat.digits 10 n).reverse.map fun d => BitVec.ofNat 8 (48 + d) := by
  rw [decimalDigits_eq_digits h hn, List.map_map]
  exact List.map_congr_left fun d hd => charByte_digitChar (Nat.digits_lt_base (by decide) (List.mem_reverse.mp hd))

/-- The model's reading of a zero-terminated string is the longest zero-free start of the bytes examined
(44_system.md R182). -/
theorem cstring_eq_takeWhile (m : Memory) (fuel : Nat) (a : Word) :
    cstring m fuel a = ((List.range fuel).map fun k => readByte m (a + BitVec.ofNat 32 k)).takeWhile (· ≠ 0) := by
  induction fuel generalizing a with
  | zero => rfl
  | succ n ih =>
    have hnext : ∀ k, a + 1 + BitVec.ofNat 32 k = a + BitVec.ofNat 32 (k + 1) := fun k => by
      rw [Nat.add_comm, BitVec.ofNat_add, BitVec.add_assoc]
      rfl
    rw [cstring, ih, List.range_succ_eq_map, List.map_cons, List.map_map, List.takeWhile_cons, BitVec.ofNat_eq_ofNat,
      BitVec.add_zero]
    simp only [hnext]
    by_cases hzero : readByte m a = 0
    · simp [hzero]
    · simp [Function.comp_def]

end Sys2Proof.Machine

namespace Sys2Proof.Claims

open Sys2Proof Sys2Proof.Machine

/-- Settles O10: the advance in the spec's terms, and the decoder outside the claims' 28 mnemonics. -/
theorem unrecognisedMnemonicOnlyAdvances : Obligations.UnrecognisedMnemonicOnlyAdvances := by
  refine ⟨fun m ops s => ?_, fun L m ops hm hlower => ?_⟩
  · rw [CompletesGoingTo, exec_other, State.advance_eq_wrap32]
  · exact decodeTokens_other L ops (mt inTable_iff.mpr hm) (mt inTable_iff.mpr hlower)

/-- Settles O29: both mnemonics run the ALU's `add` on a register and a value. -/
theorem addiAndAddiuWriteTheWrappedSum : Obligations.AddiAndAddiuWriteTheWrappedSum :=
  ⟨immediateRule_of_alu decodeTokens_addi (fun _ _ _ _ => rfl) alu_add_eq_wrap32,
    immediateRule_of_alu decodeTokens_addiu (fun _ _ _ _ => rfl) alu_add_eq_wrap32⟩

/-- Settles O32: the two cases of the ALU's shift, by the amount. -/
theorem shiftsInRangeAndRefusedAbove : Obligations.ShiftsInRangeAndRefusedAbove := by
  refine ⟨formRRV_of_dispatch decodeTokens_sll, formRRV_of_dispatch decodeTokens_srl, fun rd rs sh s hsh => ?_,
    fun rd rs sh s hsh => ?_, fun rd rs sh s hsh => ?_, fun rd rs sh s hsh => ?_⟩
  · rw [← alu_sll_eq_wrap32]
    exact completesWriting_of_complete (aluShift_in_range hsh .sll rd rs s)
  · rw [← alu_srl_eq_wrap32]
    exact completesWriting_of_complete (aluShift_in_range hsh .srl rd rs s)
  · exact aluShift_out_of_range hsh .sll rd rs s
  · exact aluShift_out_of_range hsh .srl rd rs s

/-- Settles O34: the ALU's `lui` is a left shift by 16. -/
theorem luiShiftsSixteenLeft : Obligations.LuiShiftsSixteenLeft := by
  refine ⟨formRV_of_dispatch decodeTokens_lui, fun rd v s => ?_⟩
  rw [← alu_lui_eq_wrap32 0]
  exact completesWriting_of_complete rfl

/-- Settles O35: each move completes with its operand. -/
theorem movesWriteTheirOperand : Obligations.MovesWriteTheirOperand :=
  ⟨formRV_of_dispatch decodeTokens_li, formRV_of_dispatch decodeTokens_la, formRR_of_dispatch decodeTokens_move,
    fun _ _ _ => completesWriting_of_complete rfl, fun _ _ _ => completesWriting_of_complete rfl,
    fun _ _ _ => completesWriting_of_complete rfl⟩

/-- Settles O40: `exec_beq` and `exec_bne`. -/
theorem branchesCompareAllBits : Obligations.BranchesCompareAllBits :=
  ⟨formRRV_of_dispatch decodeTokens_beq, formRRV_of_dispatch decodeTokens_bne, exec_beq, exec_bne⟩

/-- Settles O41: `j` and `jr` set the pc alone, `jal` writes the link first. -/
theorem jumpsGoToTheirTarget : Obligations.JumpsGoToTheirTarget := by
  refine ⟨formT_of_dispatch decodeTokens_j, formT_of_dispatch decodeTokens_jal, formR_of_dispatch decodeTokens_jr,
    fun _ _ => rfl, fun _ _ => rfl, fun target s => ⟨(s.setReg Config.ra s.nextPc).setPc target, rfl, rfl, fun r => ?_,
      fun a => ?_, ?_, ?_, ?_⟩⟩
  · have hlink : r = Config.ra ∧ r ≠ 0 ↔ r = 31 := ⟨And.left, fun hr => ⟨hr, by rw [hr]; decide⟩⟩
    rw [State.reg_setPc, State.reg_setReg, if_congr hlink rfl rfl, State.nextPc_eq_wrap32]
  · rw [State.setPc_mem, State.setReg_mem]
  · rw [State.setPc_out, State.setReg_out]
  · rw [State.setPc_status, State.setReg_status]
  · rw [State.setPc_program, State.setReg_program]

/-! ## syscall -/

/-- Settles O42: no service touches registers, memory, the Program or the pc, and the pc advances after each. -/
theorem syscallAdvancesForEveryService : Obligations.SyscallAdvancesForEveryService := by
  refine ⟨formN_of_dispatch decodeTokens_syscall, fun s => ⟨_, exec_syscall s, ?_⟩⟩
  obtain ⟨hregs, hpc, hmem, hprogram⟩ := syscallService_frame (s.reg Config.v0) (s.reg Config.a0) s
  refine ⟨?_, fun r => State.reg_congr hregs r, fun a => ?_, hprogram⟩
  · rw [State.advance_pc, hpc]
    exact s.nextPc_eq_wrap32
  · rw [State.advance_mem, hmem]

/-- The printed decimal text is the spec's (44_system.md R181). -/
theorem printInt_eq_decimalBytes (v : Word) : printInt v = decimalBytes v.toInt := by
  have hlow := BitVec.le_toInt v
  have hhigh := BitVec.toInt_lt (x := v)
  have hdigits : (decimalDigits 10 v.toInt.natAbs).map charByte = if v.toInt = 0 then [48] else
      (Nat.digits 10 v.toInt.natAbs).reverse.map fun d => BitVec.ofNat 8 (48 + d) := by
    split
    · next hzero => rw [hzero]; rfl
    · next hne => exact map_charByte_decimalDigits (by omega) (by omega)
  rw [printInt, decimalText, decimalBytes, ← hdigits]
  split
  · rfl
  · rfl

/-- Settles O43: service 1 emits the decimal text. -/
theorem printIntAppendsTheSignedDecimal : Obligations.PrintIntAppendsTheSignedDecimal := by
  intro s hcode
  rw [exec_syscall_of_code hcode, syscallService_printInt, printInt_eq_decimalBytes]
  rfl

/-- Settles O44: service 4 emits the string, and its cap is the spec's 1000. -/
theorem printStringAppendsUpToZeroOrCap : Obligations.PrintStringAppendsUpToZeroOrCap := by
  intro s hcode
  rw [exec_syscall_of_code hcode, syscallService_printString, cstring_eq_takeWhile]
  rfl

/-- Settles O45: service 10 sets the status, after which the machine is stopped. -/
theorem exitStopsTheMachine : Obligations.ExitStopsTheMachine := by
  intro s hcode
  refine ⟨_, rfl, ?_, runsTo_self_of_stopped nofun⟩
  rw [exec_syscall_of_code hcode, syscallService_exit]
  rfl

end Sys2Proof.Claims
end

section
/-! Settles the statements of 10_state.md section 7, 60_exceptions.md section 6 and 70_reset_and_hazards.md on reset, an
assemble and the host's run loop (O47, O48, O49, O58). -/

namespace Sys2Proof.Machine

/-- What a register reads where the register file is the one of reset (10_state.md R42). -/
theorem State.reg_of_resetRegs {s : State} (h : s.regs = resetRegs) (r : Reg) :
    s.reg r = if r = 29 then Config.stackBase else 0 := by
  by_cases hsp : r = 29
  · subst hsp
    rw [if_pos rfl, State.reg, if_neg (by decide), h]
    exact Vector.getElem_set_self _
  · have hne : 29 ≠ r.val := fun e => hsp (Fin.ext e.symm)
    simp only [State.reg, h, resetRegs, Vector.getElem_set_ne _ _ hne, Vector.getElem_replicate, ite_self, if_neg hsp]

/-- No byte is listed in an empty memory (20_memory.md R50). -/
theorem readByte_nil (a : Word) : readByte [] a = 0 := rfl

end Sys2Proof.Machine

namespace Sys2Proof.Claims

open Sys2Proof Sys2Proof.Machine

/-- The image on a zeroed memory is what each address reads (70_reset_and_hazards.md R231). -/
theorem readByte_installProgram (s : State) (P : Program) (a : Word) :
    readByte (installProgram s P).mem a = imageByte P.data a :=
  readByte_writeImage P.data [] a

/-- Settles O47: the registers through the one law of the reset file, the rest by the fields of `State.reset`. -/
theorem resetValues : Obligations.ResetValues :=
  ⟨State.reg_of_resetRegs rfl, rfl, readByte_nil, rfl, rfl⟩

/-- Settles O48: the same law, and the field lemmas of `resetOp`. -/
theorem resetKeepsOnlyTheProgram : Obligations.ResetKeepsOnlyTheProgram :=
  fun s => ⟨State.reg_of_resetRegs (resetOp_regs s), resetOp_pc s, fun a => resetOp_mem s ▸ readByte_nil a,
    resetOp_out s, resetOp_status s, resetOp_program s⟩

/-- Settles O49: an assemble installs the Program, on a reset machine. -/
theorem assembleInstallsTheProgram : Obligations.AssembleInstallsTheProgram :=
  fun _ s P hP hwf => ⟨installProgram s P, assembleOp_installed_iff.mpr ⟨P, hP, hwf, rfl⟩, installProgram_program s P,
    State.reg_of_resetRegs rfl, rfl, rfl, installProgram_status s P, readByte_installProgram s P⟩

/-- Settles O58: each command, by the run mode where it depends on it. -/
theorem hostRunLoop : Obligations.HostRunLoop := by
  refine ⟨fun h src t hload => ?_, fun h hoff => ?_, fun h t hon hstep => ?_, fun h on => rfl⟩
  · rw [Scheduler.command, Scheduler.assembleSource, hload]
  · rw [Scheduler.command, hoff, if_neg Bool.false_ne_true]
  · rw [Scheduler.command, if_pos hon, Scheduler.stepMachine, hstep, hon]

end Sys2Proof.Claims
end

section
/-! Settles the statements of 30_encoding.md sections 1 and 2 on the loader (O51 to O57): well-formedness of a Program by
index, what a line can do to the loader, and what each kind of line does. -/

namespace Sys2Proof

open Sys2Proof.Machine

/-! ## Well-formed Programs (30_encoding.md R72) -/

/-- Records stand at `n`, `n + 4`, ... by index. -/
theorem addressesFrom_iff {n : Nat} {l : List Record} :
    addressesFrom n l = true ↔ ∀ k I, l[k]? = some I → I.address.toNat = n + 4 * k := by
  induction l generalizing n with
  | nil => simp [addressesFrom]
  | cons J rest ih =>
    rw [addressesFrom, Bool.and_eq_true, beq_iff_eq, ih]
    constructor
    · rintro ⟨hJ, hrest⟩ k I hI
      cases k with
      | zero => cases hI; exact hJ
      | succ k => rw [hrest k I hI]; ring
    · intro h
      refine ⟨h 0 J rfl, fun k I hI => ?_⟩
      rw [h (k + 1) I hI]
      ring

theorem distinctNames_iff_nodup {l : List Token} : distinctNames l = true ↔ l.Nodup := by
  induction l with
  | nil => simp [distinctNames]
  | cons t rest ih => simp [distinctNames, ih]

/-- Well-formedness, index by index (30_encoding.md R71, R72). -/
theorem Program.wf_iff {P : Program} :
    P.wf = true ↔ (∀ k I, P.instrs[k]? = some I → I.address.toNat = Config.textBase.toNat + 4 * k ∧ I.wf = true) ∧
      (P.labels.map Prod.fst).Nodup := by
  rw [Program.wf, Bool.and_eq_true, Bool.and_eq_true, addressesFrom_iff, List.all_eq_true, distinctNames_iff_nodup]
  refine and_congr_left fun _ => ⟨fun ⟨haddr, hwf⟩ k I hI => ⟨haddr k I hI, hwf I (List.mem_of_getElem? hI)⟩,
    fun h => ⟨fun k I hI => (h k I hI).1, fun I hI => ?_⟩⟩
  obtain ⟨k, hk⟩ := List.mem_iff_getElem?.mp hI
  exact (h k I hk).2

/-! ## Tokens -/

/-- A comma written as a space (30_encoding.md R79). -/
def commaToSpace (c : Char) : Char := if c = ',' then ' ' else c

theorem isSeparator_commaToSpace (c : Char) : isSeparator (commaToSpace c) = isSeparator c := by
  by_cases hc : c = ','
  · subst hc; rfl
  · rw [commaToSpace, if_neg hc]

theorem commaToSpace_of_not_separator {c : Char} (h : isSeparator c = false) : commaToSpace c = c := by
  refine if_neg ?_
  rintro rfl
  exact absurd h (by decide)

/-- A comma splits tokens as a space does, whatever token is being read. -/
theorem splitTokens_map_commaToSpace (line : Text) (cur : Token) :
    splitTokens (line.map commaToSpace) cur = splitTokens line cur := by
  induction line generalizing cur with
  | nil => rfl
  | cons c cs ih =>
    rw [List.map_cons, splitTokens, splitTokens, isSeparator_commaToSpace, ih, ih]
    by_cases hc : isSeparator c = true
    · rw [if_pos hc, if_pos hc]
    · rw [commaToSpace_of_not_separator (Bool.eq_false_iff.mpr hc)]

end Sys2Proof

namespace Sys2Proof.Machine

/-! ## What a line can do (30_encoding.md R75 to R80) -/

/-- The loader with one record more, at the text pointer (30_encoding.md R79). -/
def addRecord (m : Token) (ops : List Token) (n : Nat) (st : LoaderState) : LoaderState :=
  { st with instrs := st.instrs ++ [⟨st.textPtr, m, ops, n⟩], textPtr := st.textPtr + Config.instrSize }

theorem textLine_ok {n : Nat} {line : Text} {st t : LoaderState} (h : textLine n line st = .ok t) :
    ∃ m ops, (∀ x ∈ m :: ops, Token.wf x = true) ∧ t = addRecord m ops n st := by
  have hwf := splitTokens_wf line [] (by simp)
  rw [textLine] at h
  split at h
  · cases h
  · next m ops htokens =>
    split at h
    · cases h
    · cases h; exact ⟨m, ops, htokens ▸ hwf, rfl⟩

theorem stringDirective_ok {zero : Bool} {n : Nat} {line rest : Text} {st t : LoaderState}
    (h : stringDirective zero n line rest st = .ok t) : ∃ bytes, t = emitData bytes st := by
  unfold stringDirective at h
  split at h
  · cases h
  · split at h
    · split at h
      · split at h
        · cases h; exact ⟨_, rfl⟩
        · cases h
      · cases h
      · cases h
    · split at h
      · cases h
      · cases h

theorem wordDirective_ok {n : Nat} {line rest : Text} {st t : LoaderState} (h : wordDirective n line rest st = .ok t) :
    ∃ bytes, t = emitData bytes st := by
  unfold wordDirective at h
  split at h
  · cases h
  · split at h
    · cases h; exact ⟨_, rfl⟩
    · split at h
      · cases h
      · cases h

theorem dataLine_ok {n : Nat} {line word rest : Text} {st t : LoaderState} (h : dataLine n line word rest st = .ok t) :
    ∃ bytes, t = emitData bytes st := by
  unfold dataLine at h
  split_ifs at h
  · exact stringDirective_ok h
  · exact stringDirective_ok h
  · exact wordDirective_ok h

/-- A content line switches the section, writes data, or adds one record with well-formed tokens. -/
theorem contentLine_ok {n : Nat} {line : Text} {st t : LoaderState} (h : contentLine n line st = .ok t) :
    (∃ x, t = { st with sect := x }) ∨ (∃ bytes, t = emitData bytes st) ∨
      ∃ m ops, (∀ x ∈ m :: ops, Token.wf x = true) ∧ t = addRecord m ops n st := by
  simp only [contentLine] at h
  split_ifs at h
  · cases h; exact .inl ⟨_, rfl⟩
  · cases h; exact .inl ⟨_, rfl⟩
  · split at h
    · exact .inr (.inr (textLine_ok h))
    · exact .inr (.inl (dataLine_ok h))

/-- Where a label is bound, its name is new (30_encoding.md R76, D26). -/
theorem bindLabel_ok {name : Token} {st t : LoaderState} (h : bindLabel name st = .ok t) :
    name ∉ st.labels.map Prod.fst ∧ t = { st with labels := st.labels ++ [(name, currentPtr st)] } := by
  unfold bindLabel at h
  split_ifs at h with hname hbound
  cases h
  exact ⟨lookupToken_eq_none_iff.mp (Option.not_isSome_iff_eq_none.mp hbound), rfl⟩

/-! ## The loader's invariant -/

/-- What the lines read so far leave: record `k` stands at `TEXT_BASE + 4k` (modulo 2^32) and the text pointer after the
last, records are well-formed, and label names are distinct (30_encoding.md R71, R72, R75). -/
structure LoaderInv (st : LoaderState) : Prop where
  address : ∀ k I, st.instrs[k]? = some I → I.address = Config.textBase + BitVec.ofNat 32 (4 * k)
  textPtr : st.textPtr = Config.textBase + BitVec.ofNat 32 (4 * st.instrs.length)
  record : ∀ I ∈ st.instrs, I.wf = true
  labels : (st.labels.map Prod.fst).Nodup

theorem loaderStart_inv : LoaderInv loaderStart where
  address := nofun
  textPtr := rfl
  record := nofun
  labels := List.nodup_nil

/-- The invariant reads the records, the text pointer and the labels, and nothing else. -/
theorem LoaderInv.congr {st t : LoaderState} (h : LoaderInv st) (hinstrs : t.instrs = st.instrs)
    (hptr : t.textPtr = st.textPtr) (hlabels : t.labels = st.labels) : LoaderInv t where
  address := hinstrs ▸ h.address
  textPtr := hptr ▸ hinstrs ▸ h.textPtr
  record := hinstrs ▸ h.record
  labels := hlabels ▸ h.labels

theorem LoaderInv.addRecord {st : LoaderState} (h : LoaderInv st) {m : Token} {ops : List Token} (n : Nat)
    (hwf : ∀ x ∈ m :: ops, Token.wf x = true) : LoaderInv (addRecord m ops n st) where
  address k I hI := by
    rw [Machine.addRecord] at hI
    obtain hlt | rfl | hgt := Nat.lt_trichotomy k st.instrs.length
    · rw [List.getElem?_append_left hlt] at hI
      exact h.address k I hI
    · rw [List.getElem?_concat_length] at hI
      cases hI
      exact h.textPtr
    · rw [List.getElem?_eq_none (by rw [List.length_append]; exact hgt)] at hI
      cases hI
  textPtr := by
    simp only [Machine.addRecord, h.textPtr, List.length_append, List.length_singleton, Nat.mul_add, BitVec.ofNat_add,
      BitVec.add_assoc]
    rfl
  record I hI := by
    obtain hI | hI := List.mem_append.mp hI
    · exact h.record I hI
    · obtain ⟨hm, hops⟩ := List.forall_mem_cons.mp hwf
      rw [List.mem_singleton.mp hI, Record.wf, hm, List.all_eq_true.mpr hops, Bool.and_self]
  labels := h.labels

theorem contentLine_keeps_inv {n : Nat} {line : Text} {st t : LoaderState} (hst : LoaderInv st)
    (h : contentLine n line st = .ok t) : LoaderInv t := by
  obtain ⟨x, rfl⟩ | ⟨bytes, rfl⟩ | ⟨m, ops, hwf, rfl⟩ := contentLine_ok h
  · exact hst.congr rfl rfl rfl
  · exact hst.congr rfl rfl rfl
  · exact hst.addRecord n hwf

theorem optionalContent_keeps_inv {n : Nat} {line : Text} {st t : LoaderState} (hst : LoaderInv st)
    (h : optionalContent n line st = .ok t) : LoaderInv t := by
  rw [optionalContent] at h
  split at h
  · cases h; exact hst
  · exact contentLine_keeps_inv hst h

theorem bindLabel_keeps_inv {name : Token} {st t : LoaderState} (hst : LoaderInv st) (h : bindLabel name st = .ok t) :
    LoaderInv t := by
  obtain ⟨hnew, rfl⟩ := bindLabel_ok h
  refine ⟨hst.address, hst.textPtr, hst.record, ?_⟩
  rw [List.map_append, List.map_singleton, ← List.concat_eq_append]
  exact hst.labels.concat hnew

theorem labelledLine_keeps_inv {n : Nat} {line : Text} {st t : LoaderState} (hst : LoaderInv st)
    (h : labelledLine n line st = .ok t) : LoaderInv t := by
  unfold labelledLine at h
  split at h
  · exact optionalContent_keeps_inv hst h
  · simp only at h
    split at h
    · cases h
    · split at h
      · cases h
      · next hbind => exact optionalContent_keeps_inv (bindLabel_keeps_inv hst hbind) h

theorem loadLine_keeps_inv {n : Nat} {line : Text} {st t : LoaderState} (hst : LoaderInv st)
    (h : loadLine n line st = .ok t) : LoaderInv t := by
  rw [loadLine] at h
  split at h
  · cases h
  · exact labelledLine_keeps_inv hst h

theorem loadLines_keeps_inv {n : Nat} {lines : List Text} {st t : LoaderState} (hst : LoaderInv st)
    (h : loadLines n lines st = .ok t) : LoaderInv t := by
  induction lines generalizing n st with
  | nil => cases h; exact hst
  | cons line rest ih =>
    rw [loadLines] at h
    split at h
    · cases h
    · next hline => exact ih (loadLine_keeps_inv hst hline) h

/-- The Program that the loader builds holds what the invariant says (30_encoding.md R72). -/
theorem LoaderInv.program_wf {st : LoaderState} (h : LoaderInv st) (hlen : st.instrs.length ≤ 2 ^ 30 - 2 ^ 20) :
    Program.wf ⟨st.instrs, st.labels, st.data⟩ = true := by
  refine Program.wf_iff.mpr ⟨fun k I hI => ⟨?_, h.record I (List.mem_of_getElem? hI)⟩, h.labels⟩
  have hk : k < st.instrs.length := (List.getElem?_eq_some_iff.mp hI).1
  have hbase : Config.textBase.toNat = 2 ^ 22 := rfl
  rw [h.address k I hI, BitVec.toNat_add, BitVec.toNat_ofNat, hbase]
  omega

end Sys2Proof.Machine

namespace Sys2Proof.Claims

open Sys2Proof Sys2Proof.Machine

/-- Settles O51: the loader keeps `LoaderInv`, and so few records do not wrap. -/
theorem assembledProgramIsWellFormed : Obligations.AssembledProgramIsWellFormed := by
  intro src P h hlen
  rw [assemble] at h
  split at h
  · next st hload =>
    cases h
    exact (loadLines_keeps_inv loaderStart_inv hload).program_wf hlen
  · cases h

/-- Settles O53: the split of the line with its commas written as spaces. -/
theorem commasSeparateLikeSpaces : Obligations.CommasSeparateLikeSpaces :=
  fun line => (splitTokens_map_commaToSpace line []).symm

/-- Settles O57: the two cases of a load, and well-formedness by index. -/
theorem malformedProgramIsRefused : Obligations.MalformedProgramIsRefused :=
  fun _ _ => ⟨fun hwf => if_pos hwf, fun hwf => if_neg (Bool.eq_false_iff.mp hwf), Program.wf_iff⟩

end Sys2Proof.Claims
end

section
/-! Settles the statements of 30_encoding.md section 2 on single lines (O52, O54, O55, O56). -/

namespace Sys2Proof.Machine

/-! ## Content lines -/

/-- A line that does not begin with a dot is no section switch: in the text section it is an instruction line
(30_encoding.md R75, R79). -/
theorem contentLine_of_head_ne_dot {n : Nat} {line : Text} {st : LoaderState} (hdot : line.head? ≠ some '.')
    (hsect : st.sect = .text) : contentLine n line st = textLine n line st := by
  have hword : ∀ name : Text, line.takeWhile (fun c => !isSpace c) ≠ '.' :: name := fun name h => by
    cases line with
    | nil => cases h
    | cons c cs =>
      rw [List.takeWhile_cons] at h
      split at h
      · cases h; exact hdot rfl
      · cases h
  simp only [contentLine, if_neg (hword _), hsect]

/-- A line of a word and, after a space, some text is a line of the data section, where it switches no section
(30_encoding.md R75, R77 to R80). -/
theorem contentLine_of_word {n : Nat} {word rest : Text} {st : LoaderState} (hword : ∀ c ∈ word, isSpace c = false)
    (hdata : word ≠ ['.', 'd', 'a', 't', 'a']) (htext : word ≠ ['.', 't', 'e', 'x', 't']) (hsect : st.sect = .data) :
    contentLine n (word ++ ' ' :: rest) st = dataLine n (word ++ ' ' :: rest) word (trim rest) st := by
  obtain ⟨htake, hdrop⟩ := takeWhile_append_stop (p := fun c => !isSpace c) (a := word) (b := rest) (c := ' ')
    (fun c hc => by rw [hword c hc]; rfl) rfl
  simp only [contentLine, htake, hdrop, trim_space, if_neg hdata, if_neg htext, hsect]

theorem contentLine_ascii {n : Nat} {rest : Text} {st : LoaderState} (hsect : st.sect = .data) :
    contentLine n (".ascii ".toList ++ rest) st =
      stringDirective false n (".ascii ".toList ++ rest) (trim rest) st :=
  contentLine_of_word (word := ".ascii".toList) (by simp [isSpace]) (by decide) (by decide) hsect

theorem contentLine_asciiz {n : Nat} {rest : Text} {st : LoaderState} (hsect : st.sect = .data) :
    contentLine n (".asciiz ".toList ++ rest) st =
      stringDirective true n (".asciiz ".toList ++ rest) (trim rest) st :=
  contentLine_of_word (word := ".asciiz".toList) (by simp [isSpace]) (by decide) (by decide) hsect

theorem contentLine_word {n : Nat} {rest : Text} {st : LoaderState} (hsect : st.sect = .data) :
    contentLine n (".word ".toList ++ rest) st = wordDirective n (".word ".toList ++ rest) (trim rest) st :=
  contentLine_of_word (word := ".word".toList) (by simp [isSpace]) (by decide) (by decide) hsect

/-! ## Words (30_encoding.md R78) -/

/-- What is no separator is no whitespace. -/
theorem isSpace_of_not_separator {c : Char} (h : isSeparator c = false) : isSpace c = false := by
  rw [isSeparator, Bool.or_eq_false_iff] at h
  exact h.1

/-- Trimming keeps a well-formed token. -/
theorem trim_of_wf {t : Token} (h : Token.wf t = true) : trim t = t := by
  obtain ⟨-, hsep⟩ := Token.wf_iff.mp h
  exact trim_keep (fun c hc => isSpace_of_not_separator (hsep c (List.mem_of_mem_head? hc)))
    fun c hc => isSpace_of_not_separator (hsep c (List.mem_of_mem_getLast? hc))

/-- `.word` of one literal writes its bytes (30_encoding.md R78). -/
theorem wordDirective_of_literal {n : Nat} {line lit : Text} {v : Word} {st : LoaderState}
    (h : literalValue lit = some v) : wordDirective n line lit st = .ok (emitData (wordBytes v) st) := by
  obtain ⟨hne, hsep⟩ := Token.wf_iff.mp (literalValue_wf h)
  have hone : ¬ (lit = [] ∨ lit.any isSeparator = true) := by simpa [hne] using hsep
  rw [wordDirective, if_neg hone, h]

/-! ## Strings (30_encoding.md R77) -/

/-- A string directive of one quoted string writes its bytes. -/
theorem stringDirective_of_closed {zero : Bool} {n : Nat} {line rest : Text} {bytes : List Byte} {st : LoaderState}
    (h : scanString false rest [] = .closed bytes []) :
    stringDirective zero n line (quoteChar :: rest) st = .ok (emitData (bytes ++ if zero then [0] else []) st) := by
  rw [stringDirective, if_pos rfl, h]
  rfl

/-! ## Labels (30_encoding.md R76) -/

theorem bindLabel_of_new {name : Token} {st : LoaderState} (hne : name ≠ []) (hspace : ∀ c ∈ name, isSpace c = false)
    (hnew : name ∉ st.labels.map Prod.fst) :
    bindLabel name st = .ok { st with labels := st.labels ++ [(name, currentPtr st)] } := by
  have hname : ¬ (name = [] ∨ name.any isSpace = true) := by simpa [hne] using hspace
  rw [bindLabel, if_neg hname, lookupToken_eq_none_iff.mpr hnew]
  rfl

theorem bindLabel_of_bound {name : Token} {st : LoaderState} (hne : name ≠ [])
    (hspace : ∀ c ∈ name, isSpace c = false) (hbound : name ∈ st.labels.map Prod.fst) :
    bindLabel name st = .error (.refused .duplicateLabel) := by
  have hname : ¬ (name = [] ∨ name.any isSpace = true) := by simpa [hne] using hspace
  have hsome : (lookupToken name st.labels).isSome = true := by
    rw [Option.isSome_iff_ne_none, ne_eq, lookupToken_eq_none_iff]
    exact not_not.mpr hbound
  rw [bindLabel, if_neg hname, if_pos hsome]

theorem currentPtr_eq_ite (st : LoaderState) : currentPtr st = if st.sect = .text then st.textPtr else st.dataPtr := by
  rw [currentPtr]
  cases st.sect <;> rfl

/-- A line with a colon: the text before the first one is the label's name (30_encoding.md R76). -/
theorem labelledLine_of_colon {n : Nat} {before after : Text} {st : LoaderState} (hcolon : ∀ c ∈ before, c ≠ ':') :
    labelledLine n (before ++ ':' :: after) st =
      if betweenQuotes before after then .error (.refused .badLabel)
      else (bindLabel (trim before) st).bind (optionalContent n (trim after)) := by
  obtain ⟨htake, hdrop⟩ := takeWhile_append_stop (p := (· ≠ ':')) (a := before) (b := after) (c := ':')
    (fun c hc => by simpa using hcolon c hc) (by simp)
  simp only [labelledLine, hdrop, htake]
  cases bindLabel (trim before) st <;> rfl

/-- Whitespace before the colon holds no quote. -/
theorem betweenQuotes_append_spaces {name pad after : Text} (hpad : ∀ c ∈ pad, isSpace c = true) :
    betweenQuotes (name ++ pad) after = betweenQuotes name after := by
  have hquote : pad.count quoteChar = 0 := List.count_eq_zero.mpr fun hmem => absurd (hpad _ hmem) (by decide)
  rw [betweenQuotes, List.count_append, hquote, Nat.add_zero, betweenQuotes]

end Sys2Proof.Machine

namespace Sys2Proof.Claims

open Sys2Proof Sys2Proof.Machine

/-- Settles O52: the line is no section switch, and its tokens are the ones it was written from. -/
theorem textLineRecordsOneInstruction : Obligations.TextLineRecordsOneInstruction := by
  intro n m ops st hm hops hdot hsect
  have hhead : (m ++ joinOperands true ops).head? = m.head? :=
    List.head?_append_of_ne_nil m (Token.wf_iff.mp hm).1
  rw [contentLine_of_head_ne_dot (hhead.symm ▸ hdot) hsect, textLine, tokenise_joinOperands hm hops]
  have hptr : st.textPtr + Config.instrSize = wrap32 (st.textPtr.toNat + 4) := add_ofNat_eq_wrap32 st.textPtr 4
  simp only [if_neg hdot, hptr]

/-- One place of a quoted string scans as its byte (30_encoding.md R77). -/
theorem scanString_piece {p : Text × Byte} (hp : StringPiece p) (rest : Text) (acc : List Byte) :
    scanString false (p.1 ++ rest) acc = scanString false rest (acc ++ [p.2]) := by
  obtain ⟨c, hquote, hslash, rfl⟩ | rfl | rfl := hp
  · exact (if_neg hquote).trans (if_neg hslash)
  · rfl
  · rfl

/-- A quoted string scans up to its closing quote as the bytes of its places (30_encoding.md R77). -/
theorem scanString_pieces {pieces : List (Text × Byte)} (h : ∀ p ∈ pieces, StringPiece p) (acc : List Byte) :
    scanString false (pieces.flatMap Prod.fst ++ [quoteChar]) acc = .closed (acc ++ pieces.map Prod.snd) [] := by
  induction pieces generalizing acc with
  | nil => rw [List.map_nil, List.append_nil]; rfl
  | cons p rest ih =>
    obtain ⟨hp, hrest⟩ := List.forall_mem_cons.mp h
    rw [List.flatMap_cons, List.append_assoc, scanString_piece hp, ih hrest, List.append_assoc]
    rfl

/-- A quoted string has no whitespace at its ends. -/
theorem trim_quotedString (pieces : List (Text × Byte)) : trim (quotedString pieces) = quotedString pieces := by
  refine trim_keep (fun c hc => ?_) fun c hc => ?_
  · cases hc; rfl
  · rw [quotedString, ← List.cons_append, List.getLast?_concat] at hc
    cases hc; rfl

/-- A string directive of a quoted string writes the bytes of its places, and a zero byte where it is asked for. -/
theorem stringDirective_quotedString {pieces : List (Text × Byte)} (h : ∀ p ∈ pieces, StringPiece p) (zero : Bool)
    (n : Nat) (line : Text) (st : LoaderState) :
    stringDirective zero n line (trim (quotedString pieces)) st =
      .ok (emitData (pieces.map Prod.snd ++ if zero then [0] else []) st) := by
  rw [trim_quotedString]
  exact stringDirective_of_closed (scanString_pieces h [])

/-- Settles O54: the bytes of both directives, and their addresses by index. -/
theorem stringDirectiveWritesItsBytes : Obligations.StringDirectiveWritesItsBytes := by
  intro n pieces st hsect hpieces
  refine ⟨emitData (pieces.map Prod.snd) st, emitData (pieces.map Prod.snd ++ [0]) st, ?_, ?_, ?_, ?_, ?_, ?_, hsect,
    hsect, rfl, rfl, rfl, rfl, rfl, rfl⟩
  · rw [contentLine_ascii hsect, stringDirective_quotedString hpieces, if_neg Bool.false_ne_true, List.append_nil]
  · simp only [emitData, bytesAt_eq_mapIdx, List.mapIdx_eq_zipIdx_map, List.zipIdx_map, List.map_map]
    rfl
  · rw [emitData, List.length_map]
  · rw [contentLine_asciiz hsect, stringDirective_quotedString hpieces, if_pos rfl]
  · simp only [emitData, bytesAt_append, List.append_assoc, bytesAt]
  · simp only [emitData, List.length_append, BitVec.ofNat_add, BitVec.add_assoc]
    rfl

/-- Settles O55: `.word` of the trimmed literal, byte by byte. -/
theorem wordDirectiveWritesFourBytes : Obligations.WordDirectiveWritesFourBytes := by
  intro n lit v st hsect hlit
  rw [contentLine_word hsect, trim_of_wf (literalValue_wf hlit), wordDirective_of_literal hlit, emitData,
    bytesAt_eq_mapIdx]
  simp only [wordBytes, wordByte_eq_bigEndianByte]
  rfl

/-- Settles O56: the label line, by whether the name is new and whether the colon lies between quotes. -/
theorem labelBindsTheSectionPointer : Obligations.LabelBindsTheSectionPointer := by
  intro n name pad after st hne hname hpad
  have hspace : ∀ c ∈ name, isSpace c = false := fun c hc => (hname c hc).1
  have hcolon : ∀ c ∈ name ++ pad, c ≠ ':' := by
    refine List.forall_mem_append.mpr ⟨fun c hc => (hname c hc).2, fun c hc => ?_⟩
    rintro rfl
    exact absurd (hpad _ hc) (by decide)
  rw [labelledLine_of_colon hcolon, betweenQuotes_append_spaces hpad, trim_append_spaces hpad hne hspace]
  refine ⟨fun hquotes hnew => ?_, fun hquotes hbound => ?_, fun hquotes => if_pos hquotes⟩
  · rw [hquotes, if_neg Bool.false_ne_true, bindLabel_of_new hne hspace hnew, currentPtr_eq_ite]
    exact if_congr trim_eq_nil_iff rfl rfl
  · rw [hquotes, if_neg Bool.false_ne_true, bindLabel_of_bound hne hspace hbound]
    rfl

end Sys2Proof.Claims
end
